-- ==== Sys2Proof/Word.lean ====
section
/-! DEFINITION. The plainest types of the GRC bit-ring core: the 64-bit instruction word, the two rotation
directions, the opcode names, the instruction record of rule R70 and what one index of the program store holds. -/

namespace Sys2Proof

/-- One binary instruction word (30_encoding.md R71: "Every instruction is one 64-bit word"). -/
abbrev InstrWord := BitVec 64

/-- A rotation direction (00_scope.md R9): `left` is the source's counter-clockwise, `right` its clockwise. -/
inductive Dir where
  | left
  | right
  deriving DecidableEq, Repr

/-- The nine opcode names, in the source's order (30_encoding.md R70, R72). -/
inductive Opcode where
  | nop
  | mov
  | xor
  | and
  | or
  | add
  | shiftRing
  | tickAll
  | halt
  deriving DecidableEq, Repr

/-- The normative instruction record (30_encoding.md R70): every field is present in every record, and an opcode
ignores the fields it does not use. -/
structure Record where
  op  : Opcode
  a   : Nat
  b   : Nat
  c   : Nat
  imm : Int
  dir : Dir
  deriving DecidableEq, Repr

/-- What one index of the program store holds (20_memory.md R50, R53; 92_eei_decisions.md D2: "one word (or one
record) per index"). -/
inductive Slot where
  | record (r : Record)
  | word (w : InstrWord)
  deriving DecidableEq, Repr

end Sys2Proof
end

