-- ==== Sys2Proof/Config.lean ====
section
/-! DEFINITION. The construction-time parameters of the core (00_scope.md R6, 10_state.md R34): read-only after
construction. `NR` and `G` live with the rings themselves (`Memory`); `INIT_DIR` and `INIT_CELLS` are arguments of the
construction. No parameter is a number the model hides: every statement over a state quantifies over all of them. -/

namespace Sys2Proof

/-- The three width profiles (00_scope.md R2). -/
inductive Profile where
  | w64
  | w360
  | w720
  deriving DecidableEq, Repr

/-- The OPEN size bounds (R6, 92_eei_decisions.md D26): the spec gives them no values. -/
structure Limits where
  maxRings      : Nat
  maxGears      : Nat
  maxProgramLen : Nat
  deriving DecidableEq, Repr

/-- The configuration a core is constructed with (10_state.md R34). -/
structure Config where
  /-- `W`, the register width, as its profile. -/
  profile  : Profile
  /-- `NREG`, the number of registers. -/
  regCount : Nat
  /-- `HOOK`, the glyph-hook enable. -/
  hook     : Bool
  /-- `W64_BASE`, the base logical index of every W64 register. -/
  w64Base  : Nat
  /-- `MAX_RINGS`, `MAX_GEARS`, `MAX_PROGRAM_LEN`. -/
  limits   : Limits
  deriving DecidableEq, Repr

/-- Bounds for `State.reset` (DESIGN CHOICE, notes/assumptions/4.md: the spec leaves them OPEN). -/
def Limits.default : Limits :=
  { maxRings := 256, maxGears := 1024, maxProgramLen := 65536 }

/-- The configuration of `State.reset`: the default configuration of 95_test_vectors.md (profile 64, `NREG = 3`,
`HOOK = false`, `W64_BASE = 0`). DESIGN CHOICE, notes/assumptions/4.md. -/
def Config.default : Config :=
  { profile := .w64, regCount := 3, hook := false, w64Base := 0, limits := Limits.default }

end Sys2Proof
end

