-- ==== Sys2Proof/Syntax.lean ====
section
/-! DEFINITION. The instruction set: one constructor per row of spec/opcode_table.json, carrying exactly the fields
that opcode reads (30_encoding.md R76). -/

namespace Sys2Proof

/-- The nine instructions (00_scope.md R2). Register indices and the ring index are non-negative integers and the
immediate is a signed integer, as in the record of R70; what a 64-bit word can hold of them is `Instr.wellFormed`. -/
inductive Instr where
  /-- NOP (R170). -/
  | nop
  /-- MOV `Ra, Rb` (R171). -/
  | mov (a b : Nat)
  /-- XOR `Ra, Rb, Rc` (R172). -/
  | xor (a b c : Nat)
  /-- AND `Ra, Rb, Rc` (R173). -/
  | and (a b c : Nat)
  /-- OR `Ra, Rb, Rc` (R174). -/
  | or (a b c : Nat)
  /-- ADD `Ra, Rb, Rc` (R175). -/
  | add (a b c : Nat)
  /-- SHIFT_RING `a, dir, imm` (R176); `a` is a ring index. -/
  | shiftRing (a : Nat) (dir : Dir) (imm : Int)
  /-- TICK_ALL `imm` (R177). -/
  | tickAll (imm : Int)
  /-- HALT (R178). -/
  | halt
  deriving DecidableEq, Repr

end Sys2Proof
end

