-- ==== Sys2Proof/WellFormed.lean ====
section
/-! DEFINITION. Which instructions and records the 64-bit format can hold (30_encoding.md R79: "Encoding a record is
defined only when `a, b, c <= 255` and `-2^31 <= imm < 2^31`"). -/

namespace Sys2Proof

/-- An index fits its 8-bit field (R74). -/
def indexFits (n : Nat) : Bool := decide (n ≤ 255)

/-- An immediate fits its 32-bit two's-complement field (R75). -/
def immFits (v : Int) : Bool := decide (-2147483648 ≤ v) && decide (v < 2147483648)

/-- R79's domain of encoding, for a record: all its fields, the ignored ones too. -/
def Record.wellFormed (r : Record) : Bool :=
  indexFits r.a && indexFits r.b && indexFits r.c && immFits r.imm

/-- R79's domain of encoding, for an instruction: the fields its opcode reads. -/
def Instr.wellFormed : Instr → Bool
  | .nop => true
  | .mov a b => indexFits a && indexFits b
  | .xor a b c => indexFits a && indexFits b && indexFits c
  | .and a b c => indexFits a && indexFits b && indexFits c
  | .or a b c => indexFits a && indexFits b && indexFits c
  | .add a b c => indexFits a && indexFits b && indexFits c
  | .shiftRing a _ imm => indexFits a && immFits imm
  | .tickAll imm => immFits imm
  | .halt => true

end Sys2Proof
end

