-- ==== Sys2Proof/Decode.lean ====
section
/-! DEFINITION. The binary format (30_encoding.md R71 to R79): the decoder, total on every 64-bit word and refusing by
name, and after it the encoder. -/

namespace Sys2Proof

/-- Why a word is illegal (R77). Both give IllegalEncoding when the word is executed. -/
inductive DecodeError where
  /-- `bits[3:0]` is 9 to 15. -/
  | reservedOpcode (value : Nat)
  /-- `bits[7:5]` is not 0. -/
  | reservedField (value : Nat)
  deriving DecidableEq, Repr

/-- The `width`-bit field of `w` whose lowest bit is `lo`, zero-extended (00_scope.md R9). -/
def field (w : InstrWord) (lo width : Nat) : Nat := w.toNat / 2 ^ lo % 2 ^ width

/-- `sext_32` (R9): the 32-bit field `v` read as two's complement. -/
def sext32 (v : Nat) : Int := if v < 2147483648 then (v : Int) else (v : Int) - 4294967296

/-- The 32-bit field that holds a signed integer. -/
def imm32 (v : Int) : Nat := (v % 4294967296).toNat

/-- The opcode field's value (R72). -/
def Opcode.number : Opcode → Nat
  | .nop => 0
  | .mov => 1
  | .xor => 2
  | .and => 3
  | .or => 4
  | .add => 5
  | .shiftRing => 6
  | .tickAll => 7
  | .halt => 8

/-- The opcode a field value selects; 9 to 15 are reserved (R72). -/
def opcodeOfNumber : Nat → Option Opcode
  | 0 => some .nop
  | 1 => some .mov
  | 2 => some .xor
  | 3 => some .and
  | 4 => some .or
  | 5 => some .add
  | 6 => some .shiftRing
  | 7 => some .tickAll
  | 8 => some .halt
  | _ => none

/-- R73: 0 is Left, 1 is Right. -/
def dirOfBit (d : Nat) : Dir := if d = 0 then .left else .right

/-- R73, the other way. -/
def Dir.bit : Dir → Nat
  | .left => 0
  | .right => 1

/-- Decoding a word to its record (R79), with the fields of R71 to R75. -/
def decodeRecord (w : InstrWord) : Except DecodeError Record :=
  match opcodeOfNumber (field w 0 4) with
  | none => .error (.reservedOpcode (field w 0 4))
  | some op =>
    if field w 5 3 = 0 then
      .ok { op := op, a := field w 8 8, b := field w 16 8, c := field w 24 8,
            imm := sext32 (field w 32 32), dir := dirOfBit (field w 4 1) }
    else .error (.reservedField (field w 5 3))

/-- The instruction a record stands for: the fields its opcode reads, the others ignored (R76). -/
def Record.instr (r : Record) : Instr :=
  match r.op with
  | .nop => .nop
  | .mov => .mov r.a r.b
  | .xor => .xor r.a r.b r.c
  | .and => .and r.a r.b r.c
  | .or => .or r.a r.b r.c
  | .add => .add r.a r.b r.c
  | .shiftRing => .shiftRing r.a r.dir r.imm
  | .tickAll => .tickAll r.imm
  | .halt => .halt

/-- The instruction a word stands for, or the reason it is illegal. -/
def decode (w : InstrWord) : Except DecodeError Instr :=
  match decodeRecord w with
  | .ok r => .ok r.instr
  | .error e => .error e

/-- The instruction held at one index of the program store: a record as it is, a word decoded at fetch (R155, R192). -/
def Slot.instr : Slot → Except DecodeError Instr
  | .record r => .ok r.instr
  | .word w => decode w

/-- Put `x` at index `n` of a program; an index past the end is reached over all-zero words (NOP). -/
def placeSlot : List Slot → Nat → Slot → List Slot
  | [], 0, x => [x]
  | _ :: rest, 0, x => x :: rest
  | [], n + 1, x => .word 0 :: placeSlot [] n x
  | s :: rest, n + 1, x => s :: placeSlot rest n x

/-- The word of a table row: `nbits` bits numbered with bit 0 the least significant bit of the one word, zeros above. -/
def tableWord (nbits w : Nat) : InstrWord := BitVec.ofNat 64 (w % 2 ^ nbits)

/-- What the decoder reads from an instruction whose bits, numbered as the opcode table numbers them, are `w`. -/
def decodeTableWord (nbits w : Nat) : Option Instr :=
  match decode (tableWord nbits w) with
  | .ok i => some i
  | .error _ => none

/-! ### The encoder (R79) -/

/-- A word from its fields (R71); the reserved field is 0. -/
def packWord (op d a b c imm : Nat) : InstrWord :=
  BitVec.ofNat 64
    (op + 2 ^ 4 * d + 2 ^ 8 * a + 2 ^ 16 * b + 2 ^ 24 * c + 2 ^ 32 * imm)

/-- The record of an instruction, its ignored fields 0 (R79) and its ignored direction Left, whose bit is 0. -/
def Instr.record : Instr → Record
  | .nop => ⟨.nop, 0, 0, 0, 0, .left⟩
  | .mov a b => ⟨.mov, a, b, 0, 0, .left⟩
  | .xor a b c => ⟨.xor, a, b, c, 0, .left⟩
  | .and a b c => ⟨.and, a, b, c, 0, .left⟩
  | .or a b c => ⟨.or, a, b, c, 0, .left⟩
  | .add a b c => ⟨.add, a, b, c, 0, .left⟩
  | .shiftRing a dir imm => ⟨.shiftRing, a, 0, 0, imm, dir⟩
  | .tickAll imm => ⟨.tickAll, 0, 0, 0, imm, .left⟩
  | .halt => ⟨.halt, 0, 0, 0, 0, .left⟩

/-- The word of a well-formed instruction (R79). -/
def encode (i : Instr) : InstrWord :=
  let r := i.record
  packWord r.op.number r.dir.bit r.a r.b r.c (imm32 r.imm)

/-- Encoding a record is defined exactly on R79's domain; every ignored field is written 0. -/
def Record.encode (r : Record) : Option InstrWord :=
  if r.wellFormed then some (Sys2Proof.encode r.instr) else none

end Sys2Proof
end

