-- ==== Sys2Proof/Machine/State.lean ====
section
/-! DEFINITION. The architectural state (spec/10_state.md), as plain data: the Machine's rings, the CPU core and the
read-only configuration; the outcomes a step can stop with; and the state right after construction. -/

namespace Sys2Proof.Machine

/-- One ring (R21, R22, R23): its offset, its recorded direction, and its one-bit cells by physical index. The
per-cell geometry payload is not state (R24). -/
structure Ring where
  offset : Nat
  dir    : Dir
  cells  : List Bool
  deriving DecidableEq, Repr

/-- The spec's Machine (R20): an ordered collection of rings of one gearCount `G`. `NR` is the length of `rings`. Its
canonical form is `Memory.wf` (Machine/Ops.lean): one list of exactly `G` bits a ring, so equal contents are equal
data. -/
structure Memory where
  gearCount : Nat
  rings     : List Ring
  deriving DecidableEq, Repr

/-- A Word: a descriptor, not storage (R25). -/
inductive WordDesc where
  | w64 (ring base : Nat)
  | w360 (ring : Nat)
  | w720 (ringLo ringHi : Nat)
  deriving DecidableEq, Repr

/-- The failure kinds (60_exceptions.md R210). -/
inductive FailureKind where
  | outOfRange
  | invalidConfiguration
  | widthMismatch
  | illegalEncoding
  deriving DecidableEq, Repr

/-- The fault record's pair (R33): the failure kind, whose number is `FailureKind.code`, and the index of the faulting
instruction. -/
structure FaultRecord where
  kind : FailureKind
  ip   : Nat
  deriving DecidableEq, Repr

/-- Everything the spec gives the hardware (10_state.md). -/
structure State where
  /-- `W`, `NREG`, `HOOK`, `W64_BASE` and the OPEN bounds (R34, R6): read-only. -/
  config : Config
  /-- The bound Machine: `G`, the rings, their offsets, directions and cells (R20 to R23). The registers are views of
  these cells and have no storage of their own (R27). -/
  mem    : Memory
  /-- The program store `prog[0 .. len-1]` (R29). -/
  prog   : List Slot
  /-- The instruction pointer, an index into the program (R30). -/
  ip     : Nat
  /-- The halted flag (R31). -/
  halted : Bool
  /-- The fault record: `none` or `(code, ip)` (R33). -/
  fault  : Option FaultRecord
  deriving DecidableEq, Repr

/-- Why the machine stops. -/
inductive Fault where
  /-- Raised by `step` alone, on a core whose fault record is already set: "the step changes nothing and fails again
  with the recorded fault" (42_cpu_step.md R151). Safe: nothing runs past a failure. -/
  | recorded (kind : FailureKind) (ip : Nat)
  deriving DecidableEq, Repr

/-- Why the model gives an instruction no meaning. -/
inductive Refusal where
  /-- Raised by an arm of `exec` whose instruction has no meaning yet; no arm is of that kind. Safe. -/
  | notModelled (mnemonic : String)
  deriving DecidableEq, Repr

/-- A ring at Machine construction (R37, R38). -/
def Ring.initial (gearCount : Nat) (dir : Dir) (cells : Nat → Bool) : Ring :=
  { offset := 0, dir := dir, cells := (List.range gearCount).map cells }

/-- The Machine right after its construction: every offset 0 and every direction `INIT_DIR` (R37), cell `p` of ring `r`
holding `INIT_CELLS(r, p)`, an argument under no law (R38). -/
def Memory.initial (ringCount gearCount : Nat) (initDir : Dir) (initCells : Nat → Nat → Bool) : Memory :=
  { gearCount := gearCount
    rings := (List.range ringCount).map fun r => Ring.initial gearCount initDir (initCells r) }

/-- The core right after its construction over a Machine, which it leaves as it is (R39, R40, R41). -/
def State.initial (config : Config) (mem : Memory) : State :=
  { config := config, mem := mem, prog := [], ip := 0, halted := false, fault := none }

/-- The machine right after reset, which is construction (70_reset_and_hazards.md R240): `State.initial` at one choice
of the constructor's arguments, the default configuration of 95_test_vectors.md, with every cell 0 (DESIGN CHOICE,
notes/assumptions/3.md and 4.md: `INIT_CELLS` and the arguments are free in the spec, and no statement rests on them). -/
def State.reset : State :=
  State.initial Config.default (Memory.initial 3 64 .left fun _ _ => false)

end Sys2Proof.Machine
end

