-- ==== Sys2Proof/Machine/Ops.lean ====
section
/-! DEFINITION. The named operations: the Ring and Machine primitives and the glyph classifier
(spec/40_ring_machine.md), raising a failure and what follows one (spec/42_cpu_step.md R151, R159, spec/60_exceptions.md
R218, R219), and the parts of the step that every instruction shares (R153, R154, R156, R157). -/

namespace Sys2Proof.Machine

/-! ### Ring operations -/

/-- R100: any integer number of steps, reduced into `[0, G)`. -/
def normalizeSteps (gearCount : Nat) (steps : Int) : Nat := (steps % (gearCount : Int)).toNat

/-- R101: Right decreases the offset, Left increases it, modulo `G`; the direction is recorded even for 0 steps. No
cell moves. -/
def Ring.rotate (gearCount : Nat) (d : Dir) (steps : Int) (r : Ring) : Ring :=
  let s : Int := normalizeSteps gearCount steps
  match d with
  | .right => { r with offset := (((r.offset : Int) - s) % (gearCount : Int)).toNat, dir := .right }
  | .left => { r with offset := (((r.offset : Int) + s) % (gearCount : Int)).toNat, dir := .left }

/-- R102: the physical cell of a logical index; an index outside `[0, G)` is out of range and does not wrap. -/
def Ring.logicalToPhysical (gearCount : Nat) (r : Ring) (i : Int) : Except FailureKind Nat :=
  if 0 ≤ i ∧ i < (gearCount : Int) then .ok ((i.toNat + r.offset) % gearCount) else .error .outOfRange

/-- The contents of a physical cell. -/
def Ring.cell (r : Ring) (p : Nat) : Bool := r.cells.getD p false

/-- The ring with one physical cell replaced. -/
def Ring.setCell (r : Ring) (p : Nat) (b : Bool) : Ring := { r with cells := r.cells.set p b }

/-- R104: a written value "is masked to one bit", its value modulo 2. -/
def maskBit (v : Int) : Bool := decide (v % 2 = 1)

/-- R103. -/
def Ring.getBit (gearCount : Nat) (r : Ring) (i : Int) : Except FailureKind Bool :=
  match r.logicalToPhysical gearCount i with
  | .ok p => .ok (r.cell p)
  | .error e => .error e

/-- The write of R104, of one bit. -/
def Ring.putBit (gearCount : Nat) (r : Ring) (i : Int) (b : Bool) : Except FailureKind Ring :=
  match r.logicalToPhysical gearCount i with
  | .ok p => .ok (r.setCell p b)
  | .error e => .error e

/-- R104. -/
def Ring.setBit (gearCount : Nat) (r : Ring) (i v : Int) : Except FailureKind Ring :=
  r.putBit gearCount i (maskBit v)

/-- R105. -/
def Ring.flipBit (gearCount : Nat) (r : Ring) (i : Int) : Except FailureKind Ring :=
  match r.logicalToPhysical gearCount i with
  | .ok p => .ok (r.setCell p (!r.cell p))
  | .error e => .error e

/-! ### Machine operations -/

/-- `NR` (R20): fixed at construction, because no operation changes the number of rings. -/
def Memory.ringCount (m : Memory) : Nat := m.rings.length

/-- The canonical form (R20 to R22): both counts positive, every ring of exactly `G` cells with its offset in
`[0, G)`. -/
def Memory.wf (m : Memory) : Bool :=
  decide (0 < m.gearCount) && decide (0 < m.ringCount) &&
    m.rings.all fun r => decide (r.cells.length = m.gearCount) && decide (r.offset < m.gearCount)

/-- R106: the ring-index check every Machine operation begins with. -/
def Memory.ringAt (m : Memory) (ring : Int) : Except FailureKind Ring :=
  if 0 ≤ ring then
    match m.rings[ring.toNat]? with
    | some r => .ok r
    | none => .error .outOfRange
  else .error .outOfRange

/-- The Machine with ring `ring` replaced. -/
def Memory.setRing (m : Memory) (ring : Nat) (r : Ring) : Memory := { m with rings := m.rings.set ring r }

/-- R107. -/
def Memory.rotate (m : Memory) (ring : Int) (d : Dir) (steps : Int) : Except FailureKind Memory :=
  match m.ringAt ring with
  | .ok r => .ok (m.setRing ring.toNat (r.rotate m.gearCount d steps))
  | .error e => .error e

/-- R108, the global tick: every ring turns by the same steps, each in its own recorded direction. -/
def Memory.rotateAll (m : Memory) (steps : Int) : Memory :=
  { m with rings := m.rings.map fun r => r.rotate m.gearCount r.dir steps }

/-- R109. -/
def Memory.getBit (m : Memory) (ring i : Int) : Except FailureKind Bool :=
  match m.ringAt ring with
  | .ok r => r.getBit m.gearCount i
  | .error e => .error e

/-- The write of R110, of one bit. -/
def Memory.putBit (m : Memory) (ring i : Int) (b : Bool) : Except FailureKind Memory :=
  match m.ringAt ring with
  | .error e => .error e
  | .ok r =>
    match r.putBit m.gearCount i b with
    | .ok r' => .ok (m.setRing ring.toNat r')
    | .error e => .error e

/-- R110. -/
def Memory.setBit (m : Memory) (ring i v : Int) : Except FailureKind Memory := m.putBit ring i (maskBit v)

/-- Where logical index `i` of ring `ring` is stored now: the ring and the physical cell (R58, R106, R102). -/
def Memory.locate (m : Memory) (ring i : Int) : Except FailureKind (Nat × Nat) :=
  match m.ringAt ring with
  | .error e => .error e
  | .ok r =>
    match r.logicalToPhysical m.gearCount i with
    | .ok p => .ok (ring.toNat, p)
    | .error e => .error e

/-- The contents of physical cell `p` of ring `ring`: `cell[ring][p]`, false where there is none. -/
def Memory.cell (m : Memory) (ring p : Nat) : Bool :=
  match m.rings[ring]? with
  | some r => r.cell p
  | none => false

/-! ### The glyph classifier -/

/-- The number of glyph values (R7, R111). -/
def glyphCount : Nat := 13

/-- The glyph index that fires the hook (R154: "the 13th symbolic value (index 12)"). -/
def glyphTrigger : Nat := 12

/-- R111, evaluated exactly on integers (92_eei_decisions.md D15). -/
def glyph (offset gearCount : Nat) : Nat :=
  min 12 (max 0 (offset % gearCount * glyphCount / gearCount))

/-- The active glyph of a ring (R35, R111): recomputed at every use. -/
def Memory.activeGlyph (m : Memory) (ring : Int) : Except FailureKind Nat :=
  match m.ringAt ring with
  | .ok r => .ok (glyph r.offset m.gearCount)
  | .error e => .error e

/-! ### Failures -/

/-- The code of a failure kind (60_exceptions.md R210). -/
def FailureKind.code : FailureKind → Nat
  | .outOfRange => 1
  | .invalidConfiguration => 2
  | .widthMismatch => 3
  | .illegalEncoding => 4

/-- Taking a failure, the spec's whole "trap entry" (60_exceptions.md R218, 42_cpu_step.md R159): the pair of the
failure kind and the current `ip` is recorded; `ip`, `halted` and the rings stay as they are. There is no vector, no
handler and no mode, and nothing in the core returns from a failure (R219): only constructing a new core, which is
`constructCPU` of Machine/HostInterface.lean, gives a core without a fault. -/
def State.raise (s : State) (k : FailureKind) : State :=
  { s with fault := some { kind := k, ip := s.ip } }

/-! ### The parts of the step that every instruction shares -/

/-- The state with another ring contents. -/
def State.setMem (s : State) (m : Memory) : State := { s with mem := m }

/-- The halted flag set (R31). -/
def State.setHalted (s : State) : State := { s with halted := true }

/-- R153: a step at `ip >= len` sets `halted` and touches nothing else. -/
def State.endOfProgram (s : State) : State := s.setHalted

/-- R155: what the program store holds at `ip`; none exactly when `ip >= len` (R153). -/
def State.fetch (s : State) : Option Slot := s.prog[s.ip]?

/-- R154, the glyph hook: with `HOOK` set and ring 0's glyph at index 12, one extra global tick. -/
def State.glyphPreTick (s : State) : State :=
  match s.mem.activeGlyph 0 with
  | .ok g => if s.config.hook = true ∧ g = glyphTrigger then s.setMem (s.mem.rotateAll 1) else s
  | .error _ => s

/-- R156 and R157: `ip` advances by one, then every ring ticks once in its recorded direction. -/
def State.retire (s : State) : State :=
  { s with ip := s.ip + 1, mem := s.mem.rotateAll 1 }

/-- The dispatch of one instruction (R155, R158): its operand check, then its action, then `retire`. A failed check, or
a failure inside the action, is taken on the state the dispatch began with, so a failing instruction changes nothing
(R159, 92_eei_decisions.md D27). -/
def State.dispatch (s : State) (operandsOk : Bool) (action : Except FailureKind State) :
    Host.Outcome State Fault Refusal :=
  if operandsOk then
    match action with
    | .ok t => .next t.retire
    | .error k => .next (s.raise k)
  else .next (s.raise .outOfRange)

end Sys2Proof.Machine
end

