-- ==== Sys2Proof/Machine/Operands.lean ====
section
/-! DEFINITION. Operand forms: Word addressing (spec/41_word_alu.md R130 to R132), the binding of registers to rings
(spec/10_state.md R26), the construction checks that make every register readable (spec/44_host_interface.md R191) and
the operand check of an instruction (spec/43_cpu_instructions.md R179). -/

namespace Sys2Proof.Machine

/-- R130. -/
def WordDesc.width : WordDesc → Nat
  | .w64 _ _ => 64
  | .w360 _ => 360
  | .w720 _ _ => 720

/-- R131: bit `j` of a Word as a ring and a logical index of that ring. -/
def WordDesc.resolveBit (w : WordDesc) (j : Int) : Except FailureKind (Nat × Nat) :=
  if 0 ≤ j ∧ j < (w.width : Int) then
    match w with
    | .w64 ring base => .ok (ring, base + j.toNat)
    | .w360 ring => .ok (ring, j.toNat)
    | .w720 ringLo ringHi => if j < 360 then .ok (ringLo, j.toNat) else .ok (ringHi, j.toNat - 360)
  else .error .outOfRange

/-- `WordGet` (R132): live, through the current offsets. -/
def Memory.wordGet (m : Memory) (w : WordDesc) (j : Nat) : Except FailureKind Bool :=
  match w.resolveBit j with
  | .ok (ring, i) => m.getBit ring i
  | .error e => .error e

/-- `WordSet` (R132), of one bit. -/
def Memory.wordSet (m : Memory) (w : WordDesc) (j : Nat) (b : Bool) : Except FailureKind Memory :=
  match w.resolveBit j with
  | .ok (ring, i) => m.putBit ring i b
  | .error e => .error e

/-- Bit `j` of a Word as it reads now; false where the read is out of range. -/
def Memory.wordBit (m : Memory) (w : WordDesc) (j : Nat) : Bool :=
  match m.wordGet w j with
  | .ok b => b
  | .error _ => false

/-- The ring and the physical cell behind bit `j` of a Word now (R131, R58). -/
def Memory.wordCell (m : Memory) (w : WordDesc) (j : Nat) : Except FailureKind (Nat × Nat) :=
  match w.resolveBit j with
  | .ok (ring, i) => m.locate ring i
  | .error e => .error e

/-- The unsigned integer whose bits `0 .. n-1` are `f 0 .. f (n-1)` (00_scope.md R8). -/
def natOfBits (f : Nat → Bool) : Nat → Nat
  | 0 => 0
  | n + 1 => natOfBits f n + (f n).toNat * 2 ^ n

/-- `value(w)` (R132). -/
def Memory.wordValue (m : Memory) (w : WordDesc) : Nat := natOfBits (m.wordBit w) w.width

/-! ### Registers -/

/-- The width of a profile's registers (R34). -/
def profileWidth : Profile → Nat
  | .w64 => 64
  | .w360 => 360
  | .w720 => 720

/-- `x-word(k)` (R26): the rings behind register `k`. -/
def State.regWord (s : State) (k : Nat) : WordDesc :=
  match s.config.profile with
  | .w64 => .w64 k s.config.w64Base
  | .w360 => .w360 k
  | .w720 => .w720 (2 * k) (2 * k + 1)

/-- Bit `j` of register `k` (R27). -/
def State.regBit (s : State) (k j : Nat) : Bool := s.mem.wordBit (s.regWord k) j

/-- `x[k]`, the value of register `k` (R27, R132). -/
def State.regValue (s : State) (k : Nat) : Nat := s.mem.wordValue (s.regWord k)

/-- The checks of `constructCPU` on a configuration over a Machine (R191): the ring count and gear count each profile
needs. -/
def configLegal (profile : Profile) (regCount w64Base : Nat) (m : Memory) : Bool :=
  decide (0 < regCount) &&
    match profile with
    | .w64 => decide (w64Base + 64 ≤ m.gearCount) && decide (regCount ≤ m.ringCount)
    | .w360 => decide (m.gearCount = 360) && decide (regCount ≤ m.ringCount)
    | .w720 => decide (m.gearCount = 360) && decide (2 * regCount ≤ m.ringCount)

/-! ### The operand check -/

/-- A register index is in the bank. -/
def State.regOk (s : State) (k : Nat) : Bool := decide (k < s.config.regCount)

/-- `checkOperands` (R179): every index the opcode reads, before any action. -/
def checkOperands (i : Instr) (s : State) : Bool :=
  match i with
  | .mov a b => s.regOk a && s.regOk b
  | .xor a b c => s.regOk a && s.regOk b && s.regOk c
  | .and a b c => s.regOk a && s.regOk b && s.regOk c
  | .or a b c => s.regOk a && s.regOk b && s.regOk c
  | .add a b c => s.regOk a && s.regOk b && s.regOk c
  | .shiftRing a _ _ => decide (a < s.mem.ringCount)
  | .nop => true
  | .tickAll _ => true
  | .halt => true

end Sys2Proof.Machine
end

