-- ==== Sys2Proof/Machine/Flags.lean ====
section
/-! DEFINITION. The one-bit functions of the ALU. The core has no flag and no condition code (spec/10_state.md R32): the
only carry is the one that ripples inside `rippleAdd` and is discarded by ADD, so what this file holds is the carry's
majority function and what each ALU function writes and carries at one bit position. -/

namespace Sys2Proof.Machine

/-- `maj` (00_scope.md R9): 1 exactly when at least two of the three bits are 1. -/
def maj (x y z : Bool) : Bool := (x && y) || (x && z) || (y && z)

/-- One bit position of a bit-serial function: from the two input bits and the carry in, the bit written and the carry
out. -/
abbrev BitCell := Bool → Bool → Bool → Bool × Bool

/-- R134. -/
def xorCell : BitCell := fun x y _ => (x ^^ y, false)

/-- R135. -/
def andCell : BitCell := fun x y _ => (x && y, false)

/-- R136. -/
def orCell : BitCell := fun x y _ => (x || y, false)

/-- R137: the full adder, "sum = a[i] xor b[i] xor carry", "carry = majority(a[i], b[i], carry)". -/
def addCell : BitCell := fun x y carry => ((x ^^ y) ^^ carry, maj x y carry)

/-- R141: the source bit, unchanged. -/
def copyCell : BitCell := fun x _ _ => (x, false)

end Sys2Proof.Machine
end

