-- ==== Sys2Proof/Machine/Alu.lean ====
section
/-! DEFINITION. The bit-serial ALU (spec/41_word_alu.md R133 to R141): one loop, low bit to high, over the bit functions
of Machine/Flags.lean. -/

namespace Sys2Proof.Machine

/-- What an ALU function leaves: the Machine and the final carry, or a failure and the Machine at the moment of it
(a host-level call on a Word outside the rings fails in the middle of the loop, R131). -/
inductive AluResult where
  | done (m : Memory) (carry : Bool)
  | failed (k : FailureKind) (m : Memory)
  deriving DecidableEq, Repr

/-- The loop of R134 to R137 from bit `j` on, `n` bits to go: both input bits are read live, then the output bit is
written, then the carry goes on (R139: aliased Words are read when the loop reaches them). -/
def serialLoop (f : BitCell) (a b out : WordDesc) : Nat → Nat → Bool → Memory → AluResult
  | 0, _, carry, m => .done m carry
  | n + 1, j, carry, m =>
    match m.wordGet a j with
    | .error e => .failed e m
    | .ok x =>
      match m.wordGet b j with
      | .error e => .failed e m
      | .ok y =>
        match m.wordSet out j (f x y carry).1 with
        | .error e => .failed e m
        | .ok m' => serialLoop f a b out n (j + 1) (f x y carry).2 m'

/-- A bit-serial function of two Words into a third: the width check before any bit is read or written (R133), then the
loop over all bits with carry in 0. -/
def serial (f : BitCell) (a b out : WordDesc) (m : Memory) : AluResult :=
  if a.width = out.width ∧ b.width = out.width then serialLoop f a b out out.width 0 false m
  else .failed .widthMismatch m

/-- R134. -/
def bitwiseXor (a b out : WordDesc) (m : Memory) : AluResult := serial xorCell a b out m

/-- R135. -/
def bitwiseAnd (a b out : WordDesc) (m : Memory) : AluResult := serial andCell a b out m

/-- R136. -/
def bitwiseOr (a b out : WordDesc) (m : Memory) : AluResult := serial orCell a b out m

/-- R137; the result's carry is the function's returned `finalCarry`. -/
def rippleAdd (a b out : WordDesc) (m : Memory) : AluResult := serial addCell a b out m

/-- R141, low to high (92_eei_decisions.md D31). The loop's second read of the source bit has no effect (R55). -/
def copyWord (src dst : WordDesc) (m : Memory) : AluResult := serial copyCell src src dst m

/-- The state after an ALU function used by an instruction: the final carry is dropped (R175). -/
def State.withAlu (s : State) : AluResult → Except FailureKind State
  | .done m _ => .ok (s.setMem m)
  | .failed k _ => .error k

end Sys2Proof.Machine
end

