-- ==== Sys2Proof/Machine/Arith.lean ====
section
/-! DEFINITION. ADD (spec/43_cpu_instructions.md R175). -/

namespace Sys2Proof.Machine

/-- R175: `x[a] <- (x[b] + x[c]) mod 2^W`; the carry out is kept nowhere. -/
def execAdd (a b c : Nat) (s : State) : Host.Outcome State Fault Refusal :=
  s.dispatch (checkOperands (.add a b c) s)
    (s.withAlu (rippleAdd (s.regWord b) (s.regWord c) (s.regWord a) s.mem))

end Sys2Proof.Machine
end

