-- ==== Sys2Proof/Machine/Control.lean ====
section
/-! DEFINITION. NOP and HALT (spec/43_cpu_instructions.md R170, R178). -/

namespace Sys2Proof.Machine

/-- R170: no effect of its own; it still advances `ip` and ticks. -/
def execNop (s : State) : Host.Outcome State Fault Refusal :=
  s.dispatch (checkOperands .nop s) (.ok s)

/-- R178: `halted` is set; `ip` still advances and the end tick is still performed (92_eei_decisions.md D20). -/
def execHalt (s : State) : Host.Outcome State Fault Refusal :=
  s.dispatch (checkOperands .halt s) (.ok s.setHalted)

end Sys2Proof.Machine
end

