-- ==== Sys2Proof/Machine/Logic.lean ====
section
/-! DEFINITION. XOR, AND and OR (spec/43_cpu_instructions.md R172, R173, R174). -/

namespace Sys2Proof.Machine

/-- R172: `x[a] <- x[b] ^ x[c]`. -/
def execXor (a b c : Nat) (s : State) : Host.Outcome State Fault Refusal :=
  s.dispatch (checkOperands (.xor a b c) s)
    (s.withAlu (bitwiseXor (s.regWord b) (s.regWord c) (s.regWord a) s.mem))

/-- R173: `x[a] <- x[b] & x[c]`. -/
def execAnd (a b c : Nat) (s : State) : Host.Outcome State Fault Refusal :=
  s.dispatch (checkOperands (.and a b c) s)
    (s.withAlu (bitwiseAnd (s.regWord b) (s.regWord c) (s.regWord a) s.mem))

/-- R174: `x[a] <- x[b] | x[c]`. -/
def execOr (a b c : Nat) (s : State) : Host.Outcome State Fault Refusal :=
  s.dispatch (checkOperands (.or a b c) s)
    (s.withAlu (bitwiseOr (s.regWord b) (s.regWord c) (s.regWord a) s.mem))

end Sys2Proof.Machine
end

