-- ==== Sys2Proof/Machine/Move.lean ====
section
/-! DEFINITION. MOV (spec/43_cpu_instructions.md R171). -/

namespace Sys2Proof.Machine

/-- R171: `x[a] <- x[b]`, bit by bit. -/
def execMov (a b : Nat) (s : State) : Host.Outcome State Fault Refusal :=
  s.dispatch (checkOperands (.mov a b) s) (s.withAlu (copyWord (s.regWord b) (s.regWord a) s.mem))

end Sys2Proof.Machine
end

