-- ==== Sys2Proof/Machine/Rotate.lean ====
section
/-! DEFINITION. SHIFT_RING and TICK_ALL (spec/43_cpu_instructions.md R176, R177). -/

namespace Sys2Proof.Machine

/-- R176: ring `a` turns by `imm` steps in direction `dir`, and records `dir`. -/
def execShiftRing (a : Nat) (dir : Dir) (imm : Int) (s : State) : Host.Outcome State Fault Refusal :=
  s.dispatch (checkOperands (.shiftRing a dir imm) s)
    (match s.mem.rotate a dir imm with
    | .ok m => .ok (s.setMem m)
    | .error k => .error k)

/-- R177: `rotateAll(imm)`. -/
def execTickAll (imm : Int) (s : State) : Host.Outcome State Fault Refusal :=
  s.dispatch (checkOperands (.tickAll imm) s) (.ok (s.setMem (s.mem.rotateAll imm)))

end Sys2Proof.Machine
end

