-- ==== Sys2Proof/Machine/Dispatch.lean ====
section
/-! DEFINITION. One arm per instruction, each a direct call of its meaning. -/

namespace Sys2Proof.Machine

/-- Steps 4 to 6 of the fetch-execute step for one instruction (spec/42_cpu_step.md R155 to R157). -/
def exec (i : Instr) (s : State) : Host.Outcome State Fault Refusal :=
  match i with
  | .nop => Sys2Proof.Machine.execNop s
  | .mov a b => Sys2Proof.Machine.execMov a b s
  | .xor a b c => Sys2Proof.Machine.execXor a b c s
  | .and a b c => Sys2Proof.Machine.execAnd a b c s
  | .or a b c => Sys2Proof.Machine.execOr a b c s
  | .add a b c => Sys2Proof.Machine.execAdd a b c s
  | .shiftRing a dir imm => Sys2Proof.Machine.execShiftRing a dir imm s
  | .tickAll imm => Sys2Proof.Machine.execTickAll imm s
  | .halt => Sys2Proof.Machine.execHalt s

end Sys2Proof.Machine
end

