-- ==== Sys2Proof/Machine/Step.lean ====
section
/-! DEFINITION. The fetch-execute step (spec/42_cpu_step.md R150 to R159). -/

namespace Sys2Proof.Machine

/-- One call of `step()`, in the order of R158. A step that fails for the first time answers the next state, in which
the fault is recorded (R159); a step on a core whose fault is recorded changes nothing and fails (R151). What the call
returns to the host is `hostStep` (Machine/HostInterface.lean). -/
def step (s : State) : Host.Outcome State Fault Refusal :=
  match s.fault with
  | some f => .fault (.recorded f.kind f.ip)
  | none =>
    if s.halted then .next s
    else
      match s.fetch with
      | none => .next s.endOfProgram
      | some slot =>
        match slot.instr with
        | .error _ => .next (s.glyphPreTick.raise .illegalEncoding)
        | .ok i => exec i s.glyphPreTick

/-- `s` with one instruction word in the program store where the next step fetches, and nothing in the way of that
step: not halted, no recorded fault (notes/assumptions/5.md). -/
def State.withFetchWord (s : State) (nbits w : Nat) : State :=
  { s with prog := placeSlot s.prog s.ip (.word (tableWord nbits w)), halted := false, fault := none }

end Sys2Proof.Machine
end

