-- ==== Sys2Proof/Machine/Assembler.lean ====
section
/-! DEFINITION. The assembler syntax (spec/30_encoding.md R80, R81): one instruction a line, printed and read. Text is a
list of characters. There are no pseudo-instructions. -/

namespace Sys2Proof

/-- The mnemonic, exactly as the source spells the opcode (R80). -/
def Opcode.mnemonic : Opcode → List Char
  | .nop => ['N', 'O', 'P']
  | .mov => ['M', 'O', 'V']
  | .xor => ['X', 'O', 'R']
  | .and => ['A', 'N', 'D']
  | .or => ['O', 'R']
  | .add => ['A', 'D', 'D']
  | .shiftRing => ['S', 'H', 'I', 'F', 'T', '_', 'R', 'I', 'N', 'G']
  | .tickAll => ['T', 'I', 'C', 'K', '_', 'A', 'L', 'L']
  | .halt => ['H', 'A', 'L', 'T']

/-- The nine opcodes. -/
def allOpcodes : List Opcode := [.nop, .mov, .xor, .and, .or, .add, .shiftRing, .tickAll, .halt]

/-- A decimal number. -/
def decimal (n : Nat) : List Char := Nat.toDigits 10 n

/-- A register operand: `R` and its decimal index. -/
def regText (k : Nat) : List Char := 'R' :: decimal k

/-- A direction: `L` or `R`. -/
def Dir.text : Dir → List Char
  | .left => ['L']
  | .right => ['R']

/-- A decimal integer; a negative one has a minus sign. -/
def intText : Int → List Char
  | .ofNat n => decimal n
  | .negSucc n => '-' :: decimal (n + 1)

/-- The operands of an instruction, in the order of R76's assembler form. -/
def Instr.operandTexts : Instr → List (List Char)
  | .nop => []
  | .mov a b => [regText a, regText b]
  | .xor a b c => [regText a, regText b, regText c]
  | .and a b c => [regText a, regText b, regText c]
  | .or a b c => [regText a, regText b, regText c]
  | .add a b c => [regText a, regText b, regText c]
  | .shiftRing a dir imm => [decimal a, dir.text, intText imm]
  | .tickAll imm => [intText imm]
  | .halt => []

/-- Operands separated by commas. -/
def joinOperands : List (List Char) → List Char
  | [] => []
  | [t] => t
  | t :: ts => t ++ [',', ' '] ++ joinOperands ts

/-- An instruction as a line of assembler (R80). -/
def Instr.text (i : Instr) : List Char :=
  match i.operandTexts with
  | [] => i.record.op.mnemonic
  | ts => i.record.op.mnemonic ++ [' '] ++ joinOperands ts

/-! ### Reading a line -/

/-- The opcode of a mnemonic. -/
def opcodeOfText (t : List Char) : Option Opcode := allOpcodes.find? fun op => op.mnemonic == t

/-- The value of one decimal digit. -/
def digitValue (c : Char) : Option Nat :=
  if 48 ≤ c.toNat ∧ c.toNat ≤ 57 then some (c.toNat - 48) else none

/-- Decimal digits, most significant first, after the number `acc`. -/
def readDigits : List Char → Nat → Option Nat
  | [], acc => some acc
  | c :: cs, acc =>
    match digitValue c with
    | some d => readDigits cs (10 * acc + d)
    | none => none

/-- A decimal number of at least one digit. -/
def readNat : List Char → Option Nat
  | [] => none
  | cs => readDigits cs 0

/-- A decimal integer with optional sign. -/
def readInt : List Char → Option Int
  | '-' :: cs => (readNat cs).map fun n => -(n : Int)
  | '+' :: cs => (readNat cs).map fun n => (n : Int)
  | cs => (readNat cs).map fun n => (n : Int)

/-- A register operand. -/
def readReg : List Char → Option Nat
  | 'R' :: cs => readNat cs
  | _ => none

/-- A direction. -/
def readDir : List Char → Option Dir
  | ['L'] => some .left
  | ['R'] => some .right
  | _ => none

/-- The pieces of a text between commas. -/
def splitCommas : List Char → List (List Char)
  | [] => [[]]
  | c :: cs =>
    match splitCommas cs with
    | [] => [[c]]
    | p :: ps => if c = ',' then [] :: p :: ps else (c :: p) :: ps

/-- A text without the spaces at its ends. -/
def trimSpaces (t : List Char) : List Char :=
  ((t.dropWhile (· == ' ')).reverse.dropWhile (· == ' ')).reverse

/-- Three register operands. -/
def readThree (f : Nat → Nat → Nat → Instr) (x y z : List Char) : Option Instr :=
  match readReg x, readReg y, readReg z with
  | some a, some b, some c => some (f a b c)
  | _, _, _ => none

/-- An instruction from its opcode and its operand texts (R76's assembler forms). -/
def readInstr : Opcode → List (List Char) → Option Instr
  | .nop, [] => some .nop
  | .mov, [x, y] =>
    match readReg x, readReg y with
    | some a, some b => some (.mov a b)
    | _, _ => none
  | .xor, [x, y, z] => readThree .xor x y z
  | .and, [x, y, z] => readThree .and x y z
  | .or, [x, y, z] => readThree .or x y z
  | .add, [x, y, z] => readThree .add x y z
  | .shiftRing, [x, y, z] =>
    match readNat x, readDir y, readInt z with
    | some a, some dir, some imm => some (.shiftRing a dir imm)
    | _, _, _ => none
  | .tickAll, [x] =>
    match readInt x with
    | some imm => some (.tickAll imm)
    | none => none
  | .halt, [] => some .halt
  | _, _ => none

/-- One line of assembler: the mnemonic, then operands separated by commas (R80). -/
def readLine (line : List Char) : Option Instr :=
  let t := trimSpaces line
  let rest := trimSpaces (t.dropWhile (· != ' '))
  match opcodeOfText (t.takeWhile (· != ' ')) with
  | none => none
  | some op => readInstr op (if rest.isEmpty then [] else (splitCommas rest).map trimSpaces)

/-- The word of a line; an instruction the format cannot hold is refused (R79). -/
def assembleLine (line : List Char) : Option InstrWord :=
  match readLine line with
  | some i => if i.wellFormed then some (encode i) else none
  | none => none

end Sys2Proof
end

