-- ==== Sys2Proof/Machine/HostInterface.lean ====
section
/-! DEFINITION. The host's transactions (spec/44_host_interface.md): construction, which is reset
(spec/70_reset_and_hazards.md R240), program control, inspection, and direct access to the Machine between steps. No
instruction reaches any of them; each runs to completion before the next (R202). -/

namespace Sys2Proof.Machine

/-! ### Construction -/

/-- R190. `lim`, `initDir` and `initCells` are the parameters of R6 that the spec leaves to the model's arguments. -/
def constructMachine (lim : Limits) (initDir : Dir) (initCells : Nat → Nat → Bool)
    (ringCount gearsPerRing : Int) : Except FailureKind Memory :=
  if 0 < ringCount ∧ 0 < gearsPerRing ∧
      ringCount ≤ (lim.maxRings : Int) ∧ gearsPerRing ≤ (lim.maxGears : Int) then
    .ok (Memory.initial ringCount.toNat gearsPerRing.toNat initDir initCells)
  else .error .invalidConfiguration

/-- The three legal widths (R191). -/
def profileOfWidth (width : Int) : Option Profile :=
  if width = 64 then some .w64
  else if width = 360 then some .w360
  else if width = 720 then some .w720
  else none

/-- R191: every check precedes the core; the Machine is not changed (10_state.md R41). The rings of different
registers are disjoint under R26's binding, so that check always holds (`regWord_rings_disjoint`, Laws/Operands.lean). -/
def constructCPU (lim : Limits) (w64Base : Nat) (m : Memory) (width regCount : Int) (hook : Bool) :
    Except FailureKind State :=
  match profileOfWidth width with
  | none => .error .invalidConfiguration
  | some p =>
    if 0 < regCount ∧ configLegal p regCount.toNat w64Base m = true then
      .ok (State.initial
        { profile := p, regCount := regCount.toNat, hook := hook, w64Base := w64Base, limits := lim } m)
    else .error .invalidConfiguration

/-! ### Program control -/

/-- R192: the program store is replaced, `ip` is 0, `halted` is cleared; the rings and the fault record stay. Nothing in
the sequence is checked. A sequence longer than `MAX_PROGRAM_LEN` is refused and not loaded: no state. -/
def State.loadProgram (s : State) (p : List Slot) : Option State :=
  if p.length ≤ s.config.limits.maxProgramLen then some { s with prog := p, ip := 0, halted := false }
  else none

/-- R193: one call of `step()`, with the state after it and the fault it returns, if it fails (R150, R159, R151). -/
def hostStep (s : State) : State × Option FaultRecord :=
  match step s with
  | .next t => (t, t.fault)
  | .fault (.recorded k ip) => (s, some { kind := k, ip := ip })
  | .refused _ => (s, none)

/-! ### Inspection (R194 to R200, R204): functions of the state, so without side effect -/

/-- Read `n` bits from index `j` on, in increasing order. -/
def readBits (get : Nat → Except FailureKind Bool) : Nat → Nat → Except FailureKind (List Bool)
  | 0, _ => .ok []
  | n + 1, j =>
    match get j with
    | .error e => .error e
    | .ok b =>
      match readBits get n (j + 1) with
      | .error e => .error e
      | .ok bs => .ok (b :: bs)

/-- A bit string as the host reads it: `'0'` and `'1'`, the first bit first (20_memory.md R52). -/
def bitString (bs : List Bool) : String := String.ofList (bs.map fun b => if b then '1' else '0')

/-- The bits of R196's register dump. -/
def State.registerBitList (s : State) (k : Int) : Except FailureKind (List Bool) :=
  if 0 ≤ k ∧ k < (s.config.regCount : Int) then
    readBits (s.mem.wordGet (s.regWord k.toNat)) (s.regWord k.toNat).width 0
  else .error .outOfRange

/-- R196. -/
def State.registerBits (s : State) (k : Int) : Except FailureKind String :=
  match s.registerBitList k with
  | .ok bs => .ok (bitString bs)
  | .error e => .error e

/-- The bits of R197's ring dump. -/
def Memory.ringBitList (m : Memory) (ring count : Int) : Except FailureKind (List Bool) :=
  match m.ringAt ring with
  | .error e => .error e
  | .ok _ =>
    if 0 ≤ count ∧ count ≤ (m.gearCount : Int) then readBits (fun j => m.getBit ring j) count.toNat 0
    else .error .outOfRange

/-- R197. -/
def Memory.ringBits (m : Memory) (ring count : Int) : Except FailureKind String :=
  match m.ringBitList ring count with
  | .ok bs => .ok (bitString bs)
  | .error e => .error e

/-- R198. -/
def Memory.ringOffset (m : Memory) (ring : Int) : Except FailureKind Nat :=
  match m.ringAt ring with
  | .ok r => .ok r.offset
  | .error e => .error e

/-- R198. -/
def Memory.ringDirection (m : Memory) (ring : Int) : Except FailureKind Dir :=
  match m.ringAt ring with
  | .ok r => .ok r.dir
  | .error e => .error e

/-- R200: an exact natural number, informational. -/
def capacity (ringCount gearsPerRing bitsPerCell : Int) : Except FailureKind Nat :=
  if 0 < ringCount ∧ 0 < gearsPerRing ∧ (bitsPerCell = 1 ∨ bitsPerCell = 2) then
    .ok (2 ^ (ringCount * gearsPerRing * bitsPerCell).toNat)
  else .error .invalidConfiguration

/-! ### Direct Machine access -/

/-- Write the low bits of `v` to a Word, `n` bits from bit `j` on, by one `setBit` each (R201). -/
def Memory.writeWord (m : Memory) (w : WordDesc) (v : Nat) : Nat → Nat → Except FailureKind Memory
  | 0, _ => .ok m
  | n + 1, j =>
    match m.writeWord w v n j with
    | .error e => .error e
    | .ok m' =>
      match w.resolveBit ((j + n : Nat) : Int) with
      | .error e => .error e
      | .ok (ring, i) => m'.setBit ring i ((v / 2 ^ (j + n) % 2 : Nat) : Int)

/-- R201: how the host sets register `k` to `v` between steps. -/
def State.writeRegister (s : State) (k v : Nat) : Except FailureKind State :=
  match s.mem.writeWord (s.regWord k) v (s.regWord k).width 0 with
  | .ok m => .ok (s.setMem m)
  | .error e => .error e

/-! ### The host table (R203) -/

/-- What the host has: nothing yet, a Machine, or a core bound to its Machine. A Machine is in at most one core
(R202). -/
inductive System where
  | empty
  | bare (m : Memory)
  | bound (s : State)
  deriving DecidableEq, Repr

/-- One transaction (R190 to R201). -/
inductive HostCall where
  | constructMachine (ringCount gearsPerRing : Int)
  | constructCPU (width regCount : Int) (hook : Bool)
  | loadProgram (p : List Slot)
  | step
  | halted
  | instructionPointer
  | registerBits (k : Int)
  | ringBits (ring count : Int)
  | ringOffset (ring : Int)
  | ringDirection (ring : Int)
  | activeGlyph (ring : Int)
  | capacity (ringCount gearsPerRing bitsPerCell : Int)
  | rotate (ring : Int) (dir : Dir) (steps : Int)
  | rotateAll (steps : Int)
  | getBit (ring i : Int)
  | setBit (ring i v : Int)
  deriving DecidableEq, Repr

/-- What a transaction gives back. -/
inductive Reply where
  /-- A normal return. -/
  | done
  /-- A failure of the call itself: its kind. -/
  | failed (k : FailureKind)
  /-- A failing step: the fault `(code, ip)`. -/
  | fault (code ip : Nat)
  /-- A program longer than `MAX_PROGRAM_LEN`, refused. -/
  | refused
  /-- The object the call is made on has not been constructed. -/
  | noObject
  | flag (b : Bool)
  | number (n : Nat)
  | direction (d : Dir)
  | text (t : String)
  deriving DecidableEq, Repr

/-- The Machine the host can reach. -/
def System.memory : System → Option Memory
  | .empty => none
  | .bare m => some m
  | .bound s => some s.mem

/-- The system with its Machine replaced by a Machine operation of the host. -/
def System.setMemory : System → Memory → System
  | .empty, m => .bare m
  | .bare _, m => .bare m
  | .bound s, m => .bound (s.setMem m)

/-- A read of the Machine: the reply, with nothing changed (R204). -/
def System.readMemory (sys : System) (f : Memory → Except FailureKind Reply) : System × Reply :=
  match sys.memory with
  | none => (sys, .noObject)
  | some m =>
    match f m with
    | .ok r => (sys, r)
    | .error k => (sys, .failed k)

/-- A change of the Machine (R201): a failing one changes nothing. -/
def System.changeMemory (sys : System) (f : Memory → Except FailureKind Memory) : System × Reply :=
  match sys.memory with
  | none => (sys, .noObject)
  | some m =>
    match f m with
    | .ok m' => (sys.setMemory m', .done)
    | .error k => (sys, .failed k)

/-- A read of the core: the reply, with nothing changed (R204). -/
def System.readCore (sys : System) (f : State → Except FailureKind Reply) : System × Reply :=
  match sys with
  | .bound s =>
    match f s with
    | .ok r => (sys, r)
    | .error k => (sys, .failed k)
  | _ => (sys, .noObject)

/-- The result of a query, as a reply. -/
def replyOf {α : Type} (f : α → Reply) : Except FailureKind α → Except FailureKind Reply
  | .ok x => .ok (f x)
  | .error k => .error k

/-- One transaction. A failed construction leaves what there was (60_exceptions.md R212); `constructCPU` on a Machine
that has a core makes a new core over the same Machine, the only way out of a fault (60_exceptions.md R219). -/
def System.call (lim : Limits) (w64Base : Nat) (initDir : Dir) (initCells : Nat → Nat → Bool) (sys : System) :
    HostCall → System × Reply
  | .constructMachine ringCount gears =>
    match Sys2Proof.Machine.constructMachine lim initDir initCells ringCount gears with
    | .ok m => (.bare m, .done)
    | .error k => (sys, .failed k)
  | .constructCPU width regCount hook =>
    match sys.memory with
    | none => (sys, .noObject)
    | some m =>
      match Sys2Proof.Machine.constructCPU lim w64Base m width regCount hook with
      | .ok s => (.bound s, .done)
      | .error k => (sys, .failed k)
  | .loadProgram p =>
    match sys with
    | .bound s =>
      match s.loadProgram p with
      | some t => (.bound t, .done)
      | none => (sys, .refused)
    | _ => (sys, .noObject)
  | .step =>
    match sys with
    | .bound s =>
      match hostStep s with
      | (t, none) => (.bound t, .done)
      | (t, some f) => (.bound t, .fault f.kind.code f.ip)
    | _ => (sys, .noObject)
  | .halted => sys.readCore fun s => .ok (.flag s.halted)
  | .instructionPointer => sys.readCore fun s => .ok (.number s.ip)
  | .registerBits k => sys.readCore fun s => replyOf .text (s.registerBits k)
  | .ringBits ring count => sys.readMemory fun m => replyOf .text (m.ringBits ring count)
  | .ringOffset ring => sys.readMemory fun m => replyOf .number (m.ringOffset ring)
  | .ringDirection ring => sys.readMemory fun m => replyOf .direction (m.ringDirection ring)
  | .activeGlyph ring => sys.readMemory fun m => replyOf .number (m.activeGlyph ring)
  | .capacity ringCount gears bits =>
    match Sys2Proof.Machine.capacity ringCount gears bits with
    | .ok n => (sys, .number n)
    | .error k => (sys, .failed k)
  | .rotate ring dir steps => sys.changeMemory fun m => m.rotate ring dir steps
  | .rotateAll steps => sys.changeMemory fun m => .ok (m.rotateAll steps)
  | .getBit ring i => sys.readMemory fun m => replyOf .flag (m.getBit ring i)
  | .setBit ring i v => sys.changeMemory fun m => m.setBit ring i v

end Sys2Proof.Machine
end

