-- ==== Sys2Proof/Safety.lean ====
section
/-! DEFINITION. The terms claims are stated in: the machine's invariant, the end of a run (spec/42_cpu_step.md R161), what a
Word needs to be readable, what "nothing else changed" means for the rings, and turning an offset. -/

namespace Sys2Proof.Machine

/-- The invariant of a core: its Machine in canonical form (R20 to R22), its configuration legal (R34, R191),
`0 <= ip <= len` (R30), and the OPEN bounds kept (R6, R190, R192). -/
def State.wf (s : State) : Bool :=
  s.mem.wf && configLegal s.config.profile s.config.regCount s.config.w64Base s.mem &&
    decide (s.ip ≤ s.prog.length) && decide (s.prog.length ≤ s.config.limits.maxProgramLen) &&
    decide (s.mem.ringCount ≤ s.config.limits.maxRings) && decide (s.mem.gearCount ≤ s.config.limits.maxGears)

/-- A run is safe as long as no fault is recorded. -/
def State.safe (s : State) : Bool := decide (s.fault = none)

/-- R161 (a): the good end of a run. -/
def State.endedHalted (s : State) : Bool := s.halted && s.safe

/-- R161 (b): the run ended in a fault. -/
def State.endedFaulted (s : State) : Bool := !s.safe

/-- A Word whose bits are all cells of the Machine, each bit a cell of its own: its rings exist, it fits, and a W720
spans two different rings (R25, R131). -/
def Memory.holdsWord (m : Memory) : WordDesc → Bool
  | .w64 ring base => decide (ring < m.ringCount) && decide (base + 64 ≤ m.gearCount)
  | .w360 ring => decide (ring < m.ringCount) && decide (m.gearCount = 360)
  | .w720 lo hi =>
    decide (lo < m.ringCount) && decide (hi < m.ringCount) && decide (lo ≠ hi) && decide (m.gearCount = 360)

/-- Physical cell `p` of ring `ring` stores some bit of Word `w`, as the offsets stand. -/
def Memory.backs (m : Memory) (w : WordDesc) (ring p : Nat) : Prop :=
  ∃ j : Nat, j < w.width ∧ m.wordCell w j = .ok (ring, p)

/-- Two Words share no cell, as the offsets stand. -/
def Memory.noSharedCell (m : Memory) (v w : WordDesc) : Prop :=
  ∀ i j : Nat, i < v.width → j < w.width → m.wordCell v i ≠ m.wordCell w j

/-- Everything of the Machine but cell contents: `G`, and each ring's offset, direction and cell count. -/
def Memory.shape (m : Memory) : Nat × List (Nat × Dir × Nat) :=
  (m.gearCount, m.rings.map fun r => (r.offset, r.dir, r.cells.length))

/-- `m'` is `m` but for the contents of the cells behind Word `w`. -/
def Memory.sameOutside (m m' : Memory) (w : WordDesc) : Prop :=
  m'.shape = m.shape ∧ ∀ ring p : Nat, ¬ m.backs w ring p → m'.cell ring p = m.cell ring p

/-- The direction of a turn as a sign: Left increases the offset, Right decreases it (R101). -/
def dirSign : Dir → Int
  | .left => 1
  | .right => -1

/-- An offset after a turn by `k` places in direction `d` (R101). -/
def turned (gearCount : Nat) (d : Dir) (offset : Nat) (k : Int) : Nat :=
  (((offset : Int) + dirSign d * k) % (gearCount : Int)).toNat

/-- `m'` is `m` with every ring turned by `k` places in its own direction: directions, cells and counts as they were
(R108). -/
def Memory.turnedAll (m m' : Memory) (k : Int) : Prop :=
  m'.gearCount = m.gearCount ∧ m'.ringCount = m.ringCount ∧
    ∀ i : Nat, ∀ r : Ring, m.rings[i]? = some r →
      m'.rings[i]? = some { r with offset := turned m.gearCount r.dir r.offset k }

/-- The core is neither faulted nor halted, and the program store holds instruction `i` at `ip`: the next step dispatches
`i` (R151 to R155). -/
def State.runs (s : State) (i : Instr) : Prop :=
  s.fault = none ∧ s.halted = false ∧ ∃ slot, s.prog[s.ip]? = some slot ∧ slot.instr = .ok i

/-- The glyph hook fires at the start of the step (R154), by the formula of R111 on ring 0's offset, which is below
`G`. -/
def State.hookFires (s : State) : Bool :=
  s.config.hook && match s.mem.rings[0]? with
    | some r => decide (r.offset * 13 / s.mem.gearCount = 12)
    | none => false

/-- The extra ticks of the glyph hook (R162). -/
def State.hookTicks (s : State) : Int := if s.hookFires then 1 else 0

/-- The places an instruction asks every ring to turn, beyond the end tick (R162, R177). -/
def askedTurn : Instr → Int
  | .tickAll imm => imm
  | .nop => 0
  | .mov _ _ => 0
  | .xor _ _ _ => 0
  | .and _ _ _ => 0
  | .or _ _ _ => 0
  | .add _ _ _ => 0
  | .shiftRing _ _ _ => 0
  | .halt => 0

/-- The register an instruction writes, if it writes one (R171 to R175). -/
def destRegister : Instr → Option Nat
  | .mov a _ => some a
  | .xor a _ _ => some a
  | .and a _ _ => some a
  | .or a _ _ => some a
  | .add a _ _ => some a
  | .nop => none
  | .shiftRing _ _ _ => none
  | .tickAll _ => none
  | .halt => none

end Sys2Proof.Machine
end

