-- ==== Sys2Proof/Certificates/Slice0/Obligations.lean ====
section
/-! DEFINITION. The statements of this row, one `def Obligations.<Name> : Prop` each, from the numbered rules of spec/. -/

open Sys2Proof Sys2Proof.Machine

/-! ### Encoding (spec/30_encoding.md) -/

/-- R79: decoding the word of a well-formed instruction gives the instruction back, every operand at every value the
format admits. -/
def Obligations.DecodeEncodeRoundTrip : Prop :=
  ∀ i : Instr, i.wellFormed = true → decode (encode i) = .ok i

/-- R79: a record has a word exactly when every field of it fits, and that word decodes to the record's instruction, the
record up to its ignored fields. -/
def Obligations.RecordEncodesWhenItFits : Prop :=
  ∀ r : Record,
    ((∃ w, r.encode = some w) ↔
      r.a ≤ 255 ∧ r.b ≤ 255 ∧ r.c ≤ 255 ∧ -2147483648 ≤ r.imm ∧ r.imm < 2147483648) ∧
    ∀ w, r.encode = some w → decode w = .ok r.instr

/-- R77: a word is illegal exactly when its opcode field is 9 to 15 or its reserved field is not 0; executing it raises
IllegalEncoding at step 4, after the glyph pre-tick; loading it is no failure. -/
def Obligations.IllegalWordsFault : Prop :=
  ∀ w : InstrWord,
    ((∃ e, decode w = .error e) ↔ 9 ≤ w.toNat % 16 ∨ w.toNat / 32 % 8 ≠ 0) ∧
    ∀ s : State, (9 ≤ w.toNat % 16 ∨ w.toNat / 32 % 8 ≠ 0) →
      (s.fault = none → s.halted = false → s.prog[s.ip]? = some (.word w) →
        step s = .next { s.glyphPreTick with fault := some ⟨.illegalEncoding, s.ip⟩ }) ∧
      (1 ≤ s.config.limits.maxProgramLen →
        s.loadProgram [.word w] = some { s with prog := [.word w], ip := 0, halted := false })

/-- R71 to R75: the instruction a legal word decodes to: the opcode by `bits[3:0]`, the indices from their bytes,
unsigned, the direction from bit 4, the immediate from `bits[63:32]` as two's complement. -/
def Obligations.DecodeReadsTheFields : Prop :=
  ∀ (w : InstrWord) (i : Instr), decode w = .ok i →
    let a := (w.extractLsb' 8 8).toNat
    let b := (w.extractLsb' 16 8).toNat
    let c := (w.extractLsb' 24 8).toNat
    let imm := (w.extractLsb' 32 32).toInt
    let dir := if w.getLsbD 4 then Dir.right else Dir.left
    w.toNat % 16 < 9 ∧ w.toNat / 32 % 8 = 0 ∧
      i = match w.toNat % 16 with
        | 0 => .nop
        | 1 => .mov a b
        | 2 => .xor a b c
        | 3 => .and a b c
        | 4 => .or a b c
        | 5 => .add a b c
        | 6 => .shiftRing a dir imm
        | 7 => .tickAll imm
        | _ => .halt

/-- R76: a field the opcode does not read does not matter: two words that agree on the opcode, the reserved field and
the fields the opcode reads decode alike. -/
def Obligations.UnusedFieldsAreIgnored : Prop :=
  ∀ v w : InstrWord, field v 0 4 = field w 0 4 → field v 5 3 = field w 5 3 →
    (match opcodeOfNumber (field v 0 4) with
      | none | some .nop | some .halt => True
      | some .mov => field v 8 8 = field w 8 8 ∧ field v 16 8 = field w 16 8
      | some .xor | some .and | some .or | some .add =>
        field v 8 8 = field w 8 8 ∧ field v 16 8 = field w 16 8 ∧ field v 24 8 = field w 24 8
      | some .shiftRing =>
        field v 8 8 = field w 8 8 ∧ field v 4 1 = field w 4 1 ∧ field v 32 32 = field w 32 32
      | some .tickAll => field v 32 32 = field w 32 32) →
    decode v = decode w

/-- Words written out from R71 to R75 (95_test_vectors.md L2.5, L2.7), one for each opcode. -/
def Obligations.SampleWordsDecode : Prop :=
  decode 0xFFFFFFFFFFFFFF00 = .ok .nop ∧
  decode 0x0000000000000101 = .ok (.mov 1 0) ∧
  decode 0x0000000001000202 = .ok (.xor 2 0 1) ∧
  decode 0x0000000001000203 = .ok (.and 2 0 1) ∧
  decode 0x0000000001000204 = .ok (.or 2 0 1) ∧
  decode 0x00000000FFFEFD05 = .ok (.add 253 254 255) ∧
  decode 0x0000000500000116 = .ok (.shiftRing 1 .right 5) ∧
  decode 0x8000000000000007 = .ok (.tickAll (-2147483648)) ∧
  decode 0x0000000000000018 = .ok .halt

/-- The assembler syntax of 30_encoding.md section 5 (R80; the spec's decision D8): the line of every instruction reads
back as that instruction. -/
def Obligations.AssemblerRoundTrip : Prop :=
  ∀ i : Instr, readLine i.text = some i

/-! ### Rings and the Machine (spec/40_ring_machine.md) -/

/-- R100: the reduction of a step count is in `[0, G)` and differs from it by a multiple of `G`; on negative counts it is
`G - ((-s) mod G)`, or 0 where that is `G`. -/
def Obligations.StepsNormalize : Prop :=
  ∀ (g : Nat) (s : Int), 0 < g →
    normalizeSteps g s < g ∧ (g : Int) ∣ s - (normalizeSteps g s : Int) ∧
    (∀ n : Nat, s = -(n : Int) → normalizeSteps g s = if n % g = 0 then 0 else g - n % g)

/-- R101: one ring's rotation: Right decreases the offset and Left increases it, modulo `G`, for steps of any sign and
size; the direction is recorded, for 0 steps too; no cell moves. -/
def Obligations.RingRotates : Prop :=
  ∀ (g : Nat) (r : Ring) (d : Dir) (steps : Int), 0 < g → r.offset < g →
    r.rotate g d steps = { r with offset := turned g d r.offset steps, dir := d } ∧
    ((g : Int) ∣ steps → (r.rotate g d steps).offset = r.offset) ∧
    (r.rotate g .right steps).offset = (r.rotate g .left ((g : Int) - steps)).offset

/-- R114: the offset stays in `[0, G)` through every sequence of rotations, Right by `k` then Left by `k` restores it
(and records Left), and for a fixed offset the map of logical to physical indices is a bijection of `[0, G)`. -/
def Obligations.SubstrateLaws : Prop :=
  ∀ (g : Nat) (r : Ring), 0 < g → r.offset < g →
    (∀ l : List (Dir × Int), (l.foldl (fun x q => x.rotate g q.1 q.2) r).offset < g) ∧
    (∀ k : Int, ((r.rotate g .right k).rotate g .left k).offset = r.offset ∧
      ((r.rotate g .right k).rotate g .left k).dir = .left) ∧
    (∀ p : Nat, p < g → ∃ i : Nat, i < g ∧ r.logicalToPhysical g i = .ok p ∧
      ∀ j : Int, r.logicalToPhysical g j = .ok p → j = i) ∧
    (∀ i : Nat, i < g → ∃ p : Nat, p < g ∧ r.logicalToPhysical g i = .ok p)

/-- 40_ring_machine.md section 4 (R115, an inference the spec marks as its own): after a Left turn by `s`, logical index
`j` reads what `(j + s) mod G` read before, after a Right turn what `(j - s) mod G` read; no cell changes. -/
def Obligations.RotationMovesTheView : Prop :=
  ∀ (g : Nat) (r : Ring) (s : Int) (j : Nat), r.offset < g → j < g →
    (r.rotate g .left s).getBit g j = r.getBit g (((j : Int) + s) % g) ∧
    (r.rotate g .right s).getBit g j = r.getBit g (((j : Int) - s) % g) ∧
    (r.rotate g .left s).cells = r.cells ∧ (r.rotate g .right s).cells = r.cells

/-- R107: `Machine.rotate` turns the named ring and no other; a ring index outside `[0, NR)` raises OutOfRange. -/
def Obligations.MachineRotatesOneRing : Prop :=
  ∀ (m : Memory) (d : Dir) (steps : Int), m.wf = true →
    (∀ (i : Nat) (r : Ring), m.rings[i]? = some r → ∃ m', m.rotate i d steps = .ok m' ∧
      m'.gearCount = m.gearCount ∧ m'.ringCount = m.ringCount ∧
      m'.rings[i]? = some { r with offset := turned m.gearCount d r.offset steps, dir := d } ∧
      ∀ j : Nat, j ≠ i → m'.rings[j]? = m.rings[j]?) ∧
    (∀ i : Int, i < 0 ∨ (m.ringCount : Int) ≤ i → m.rotate i d steps = .error .outOfRange)

/-- R108: the global tick turns every ring by the same steps, each in its own recorded direction; no direction and no
cell changes; 0 steps change nothing. -/
def Obligations.GlobalTickTurnsEveryRing : Prop :=
  ∀ (m : Memory) (k : Int), m.wf = true → m.turnedAll (m.rotateAll k) k ∧ m.rotateAll 0 = m

/-- R102, R106: a ring index outside `[0, NR)` or a logical index outside `[0, G)` raises OutOfRange in every bit
access, and nothing is written. -/
def Obligations.AccessOutsideTheRingsFails : Prop :=
  ∀ (m : Memory) (ring i v : Int), m.wf = true →
    (ring < 0 ∨ (m.ringCount : Int) ≤ ring ∨ i < 0 ∨ (m.gearCount : Int) ≤ i) →
    m.getBit ring i = .error .outOfRange ∧ m.setBit ring i v = .error .outOfRange ∧
      m.locate ring i = .error .outOfRange

/-- R110: a bit written inside the rings reads back as the value's low bit, every bit stored in another cell reads as
before, and the canonical form is kept; a ring or a logical index outside the rings raises OutOfRange. -/
def Obligations.WrittenBitReadsBack : Prop :=
  ∀ (m : Memory) (ring i v : Int), m.wf = true →
    (0 ≤ ring ∧ ring < (m.ringCount : Int) ∧ 0 ≤ i ∧ i < (m.gearCount : Int) →
      ∃ m', m.setBit ring i v = .ok m' ∧ m'.wf = true ∧ m'.shape = m.shape ∧
        m'.getBit ring i = .ok (decide (v % 2 = 1)) ∧
        ∀ ring' i' : Int, m.locate ring' i' ≠ m.locate ring i → m'.getBit ring' i' = m.getBit ring' i') ∧
    (¬ (0 ≤ ring ∧ ring < (m.ringCount : Int) ∧ 0 ≤ i ∧ i < (m.gearCount : Int)) →
      m.setBit ring i v = .error .outOfRange)

/-- R105: `flipBit` replaces one cell's bit by its complement and is undone by a second `flipBit`; out of range it
fails. -/
def Obligations.FlipBitComplements : Prop :=
  ∀ (g : Nat) (r : Ring) (i : Int), r.cells.length = g → r.offset < g →
    (0 ≤ i → i < (g : Int) → ∃ r' b, r.getBit g i = .ok b ∧ r.flipBit g i = .ok r' ∧
      r'.getBit g i = .ok (!b) ∧ r'.flipBit g i = .ok r ∧
      ∀ j : Int, j ≠ i → r'.getBit g j = r.getBit g j) ∧
    (i < 0 ∨ (g : Int) ≤ i → r.flipBit g i = .error .outOfRange)

/-- The glyph's offsets (R111, and 40_ring_machine.md section 3, R112, an inference the spec marks as its own; exact
integer arithmetic is its decision D15): glyph `g` holds exactly from `ceil(g*G/13)` to `ceil((g+1)*G/13) - 1`, and
the clamp to `[0, 12]` never acts. -/
def Obligations.GlyphOffsetRanges : Prop :=
  ∀ (gears offset g : Nat), offset < gears →
    (glyph offset gears = g ↔ (g * gears + 12) / 13 ≤ offset ∧ offset < ((g + 1) * gears + 12) / 13) ∧
    glyph offset gears = offset * 13 / gears ∧ glyph offset gears ≤ 12

/-! ### Words and the ALU (spec/41_word_alu.md) -/

/-- R130, R131: bit `j` of a Word is a logical index of one of its rings, in the order R25 gives; a bit index outside
`[0, width)` is out of range. -/
def Obligations.BitsResolveToTheirRings : Prop :=
  ∀ (ring base lo hi : Nat) (j : Int),
    ((WordDesc.w64 ring base).width = 64 ∧ (WordDesc.w360 ring).width = 360 ∧ (WordDesc.w720 lo hi).width = 720) ∧
    (WordDesc.w64 ring base).resolveBit j =
      (if 0 ≤ j ∧ j < 64 then .ok (ring, base + j.toNat) else .error .outOfRange) ∧
    (WordDesc.w360 ring).resolveBit j =
      (if 0 ≤ j ∧ j < 360 then .ok (ring, j.toNat) else .error .outOfRange) ∧
    (WordDesc.w720 lo hi).resolveBit j =
      (if 0 ≤ j ∧ j < 360 then .ok (lo, j.toNat)
        else if 360 ≤ j ∧ j < 720 then .ok (hi, (j - 360).toNat) else .error .outOfRange)

/-- 10_state.md section 2 (R26; the binding of profiles 64 and 360 is the spec's decision D9): every register of a
well-formed core is a Word whose bits are cells of the Machine, and no two registers share a cell. -/
def Obligations.RegistersAreDisjointWords : Prop :=
  ∀ (s : State) (k l : Nat), s.wf = true → k < s.config.regCount → l < s.config.regCount →
    s.mem.holdsWord (s.regWord k) = true ∧
    (k ≠ l → s.mem.noSharedCell (s.regWord k) (s.regWord l))

/-- R133: on Words of different widths every ALU function raises WidthMismatch, with the Machine as it was; registers
all have the profile's width. -/
def Obligations.WidthMismatchIsChecked : Prop :=
  (∀ (a b out : WordDesc) (m : Memory), a.width ≠ out.width ∨ b.width ≠ out.width →
    bitwiseXor a b out m = .failed .widthMismatch m ∧ bitwiseAnd a b out m = .failed .widthMismatch m ∧
    bitwiseOr a b out m = .failed .widthMismatch m ∧ rippleAdd a b out m = .failed .widthMismatch m) ∧
  (∀ (src dst : WordDesc) (m : Memory), src.width ≠ dst.width →
    copyWord src dst m = .failed .widthMismatch m) ∧
  ∀ (s : State) (k l : Nat), (s.regWord k).width = (s.regWord l).width

/-- R134, R135, R136: the bitwise functions write, at every bit of `out`, the XOR, AND or OR of the inputs' bits before
the call, and change no other cell; `out` may be an input itself. -/
def Obligations.BitwiseFunctionsWriteEveryBit : Prop :=
  ∀ (m : Memory) (a b out : WordDesc), m.wf = true →
    m.holdsWord a = true → m.holdsWord b = true → m.holdsWord out = true →
    a.width = out.width → b.width = out.width →
    (out = a ∨ m.noSharedCell out a) → (out = b ∨ m.noSharedCell out b) →
    (∃ m' c, bitwiseXor a b out m = .done m' c ∧ m.sameOutside m' out ∧
      ∀ j, j < out.width → m'.wordBit out j = (m.wordBit a j ^^ m.wordBit b j)) ∧
    (∃ m' c, bitwiseAnd a b out m = .done m' c ∧ m.sameOutside m' out ∧
      ∀ j, j < out.width → m'.wordBit out j = (m.wordBit a j && m.wordBit b j)) ∧
    (∃ m' c, bitwiseOr a b out m = .done m' c ∧ m.sameOutside m' out ∧
      ∀ j, j < out.width → m'.wordBit out j = (m.wordBit a j || m.wordBit b j))

/-- 41_word_alu.md section 3 (R138, an inference the spec marks as its own): the ripple-carry adder is unsigned addition
modulo `2^n`, its final carry says whether the sum reached `2^n`, and it changes no cell but those of `out`; `out` may be
an input itself. -/
def Obligations.RippleAddIsAddition : Prop :=
  ∀ (m : Memory) (a b out : WordDesc), m.wf = true →
    m.holdsWord a = true → m.holdsWord b = true → m.holdsWord out = true →
    a.width = out.width → b.width = out.width →
    (out = a ∨ m.noSharedCell out a) → (out = b ∨ m.noSharedCell out b) →
    ∃ m' c, rippleAdd a b out m = .done m' c ∧
      m'.wordValue out = (m.wordValue a + m.wordValue b) % 2 ^ out.width ∧
      (c = true ↔ 2 ^ out.width ≤ m.wordValue a + m.wordValue b) ∧ m.sameOutside m' out

/-! ### The instructions (spec/43_cpu_instructions.md): each completes, with its result and its frame.

In each, `m` is the Machine the instruction leaves and `m'` the Machine after the end tick of R157; the next state
differs from the old one in the fields written out alone. -/

/-- R170: NOP completes, and does nothing but advance `ip` and tick. -/
def Obligations.NopOnlyTicks : Prop :=
  ∀ s : State, s.wf = true →
    ∃ m', exec .nop s = .next { s with ip := s.ip + 1, mem := m' } ∧ s.mem.turnedAll m' 1

/-- R171: MOV completes on registers of the bank: `x[a] <- x[b]`, and no other cell changes. -/
def Obligations.MovCopiesARegister : Prop :=
  ∀ (s : State) (a b : Nat), s.wf = true → a < s.config.regCount → b < s.config.regCount →
    ∃ m m', exec (.mov a b) s = .next { s with ip := s.ip + 1, mem := m' } ∧ m.turnedAll m' 1 ∧
      m.wordValue (s.regWord a) = s.regValue b ∧
      (∀ j, j < profileWidth s.config.profile → m.wordBit (s.regWord a) j = s.regBit b j) ∧
      s.mem.sameOutside m (s.regWord a) ∧ (a = b → m = s.mem)

/-- R172: XOR completes on registers of the bank: `x[a] <- x[b] ^ x[c]`, and no other cell changes. -/
def Obligations.XorWritesItsRegister : Prop :=
  ∀ (s : State) (a b c : Nat), s.wf = true →
    a < s.config.regCount → b < s.config.regCount → c < s.config.regCount →
    ∃ m m', exec (.xor a b c) s = .next { s with ip := s.ip + 1, mem := m' } ∧ m.turnedAll m' 1 ∧
      (∀ j, j < profileWidth s.config.profile →
        m.wordBit (s.regWord a) j = (s.regBit b j ^^ s.regBit c j)) ∧
      (b = c → m.wordValue (s.regWord a) = 0) ∧
      s.mem.sameOutside m (s.regWord a)

/-- R173: AND completes on registers of the bank: `x[a] <- x[b] & x[c]`, and no other cell changes. -/
def Obligations.AndWritesItsRegister : Prop :=
  ∀ (s : State) (a b c : Nat), s.wf = true →
    a < s.config.regCount → b < s.config.regCount → c < s.config.regCount →
    ∃ m m', exec (.and a b c) s = .next { s with ip := s.ip + 1, mem := m' } ∧ m.turnedAll m' 1 ∧
      (∀ j, j < profileWidth s.config.profile →
        m.wordBit (s.regWord a) j = (s.regBit b j && s.regBit c j)) ∧
      (b = c → m.wordValue (s.regWord a) = s.regValue b) ∧
      s.mem.sameOutside m (s.regWord a)

/-- R174: OR completes on registers of the bank: `x[a] <- x[b] | x[c]`, and no other cell changes. -/
def Obligations.OrWritesItsRegister : Prop :=
  ∀ (s : State) (a b c : Nat), s.wf = true →
    a < s.config.regCount → b < s.config.regCount → c < s.config.regCount →
    ∃ m m', exec (.or a b c) s = .next { s with ip := s.ip + 1, mem := m' } ∧ m.turnedAll m' 1 ∧
      (∀ j, j < profileWidth s.config.profile →
        m.wordBit (s.regWord a) j = (s.regBit b j || s.regBit c j)) ∧
      (b = c → m.wordValue (s.regWord a) = s.regValue b) ∧
      s.mem.sameOutside m (s.regWord a)

/-- R175: ADD completes on registers of the bank: `x[a] <- (x[b] + x[c]) mod 2^W`, the carry out is kept nowhere, and no
other cell changes. -/
def Obligations.AddWritesTheSum : Prop :=
  ∀ (s : State) (a b c : Nat), s.wf = true →
    a < s.config.regCount → b < s.config.regCount → c < s.config.regCount →
    ∃ m m', exec (.add a b c) s = .next { s with ip := s.ip + 1, mem := m' } ∧ m.turnedAll m' 1 ∧
      m.wordValue (s.regWord a) = (s.regValue b + s.regValue c) % 2 ^ profileWidth s.config.profile ∧
      s.mem.sameOutside m (s.regWord a)

/-- R176: SHIFT_RING completes on a ring of the Machine: ring `a` records `dir`, turns by `imm` places and then, with the
end tick, one more, both in direction `dir`; every other ring takes the end tick alone; no cell changes. -/
def Obligations.ShiftRingTurnsItsRing : Prop :=
  ∀ (s : State) (a : Nat) (dir : Dir) (imm : Int) (r : Ring), s.wf = true → s.mem.rings[a]? = some r →
    ∃ m', exec (.shiftRing a dir imm) s = .next { s with ip := s.ip + 1, mem := m' } ∧
      m'.gearCount = s.mem.gearCount ∧ m'.ringCount = s.mem.ringCount ∧
      m'.rings[a]? = some { r with offset := turned s.mem.gearCount dir r.offset (imm + 1), dir := dir } ∧
      ∀ (j : Nat) (x : Ring), j ≠ a → s.mem.rings[j]? = some x →
        m'.rings[j]? = some { x with offset := turned s.mem.gearCount x.dir x.offset 1 }

/-- R177: TICK_ALL completes always: every ring turns by `imm` places and one more in its own direction; no direction and
no cell changes; so `TICK_ALL -1` leaves the rings as they were. -/
def Obligations.TickAllTurnsEveryRing : Prop :=
  ∀ (s : State) (imm : Int), s.wf = true →
    ∃ m', exec (.tickAll imm) s = .next { s with ip := s.ip + 1, mem := m' } ∧ s.mem.turnedAll m' (imm + 1) ∧
      ((s.mem.gearCount : Int) ∣ imm + 1 → m' = s.mem)

/-- 43_cpu_instructions.md section 1 (R178; that HALT advances `ip` and ticks is the spec's decision D20): HALT completes
always: `halted` is set, `ip` advances, every ring ticks once, and nothing else changes. -/
def Obligations.HaltSetsHaltedAndTicks : Prop :=
  ∀ s : State, s.wf = true →
    ∃ m', exec .halt s = .next { s with ip := s.ip + 1, halted := true, mem := m' } ∧ s.mem.turnedAll m' 1

/-- R179: an index an instruction reads that is outside its bound raises OutOfRange, before the instruction changes
anything; NOP, TICK_ALL and HALT check nothing. -/
def Obligations.IndexOutOfBoundFaults : Prop :=
  ∀ (s : State) (a b c : Nat) (dir : Dir) (imm : Int),
    (¬ (a < s.config.regCount ∧ b < s.config.regCount) →
      exec (.mov a b) s = .next { s with fault := some ⟨.outOfRange, s.ip⟩ }) ∧
    (¬ (a < s.config.regCount ∧ b < s.config.regCount ∧ c < s.config.regCount) →
      exec (.xor a b c) s = .next { s with fault := some ⟨.outOfRange, s.ip⟩ } ∧
      exec (.and a b c) s = .next { s with fault := some ⟨.outOfRange, s.ip⟩ } ∧
      exec (.or a b c) s = .next { s with fault := some ⟨.outOfRange, s.ip⟩ } ∧
      exec (.add a b c) s = .next { s with fault := some ⟨.outOfRange, s.ip⟩ }) ∧
    (¬ a < s.mem.ringCount →
      exec (.shiftRing a dir imm) s = .next { s with fault := some ⟨.outOfRange, s.ip⟩ }) ∧
    (checkOperands .nop s = true ∧ checkOperands (.tickAll imm) s = true ∧ checkOperands .halt s = true)

/-! ### The step (spec/42_cpu_step.md) -/

/-- R155, R158: when the core runs and the program store holds instruction `i` at `ip`, as a record or as a word, the
step is the dispatch of `i` on the state after the glyph hook. -/
def Obligations.StepRunsTheInstruction : Prop :=
  ∀ (s : State) (i : Instr), s.runs i → step s = exec i s.glyphPreTick

/-- 42_cpu_step.md step 0 (R151; the spec's decision D16): a core with a recorded fault fails again with it. -/
def Obligations.RecordedFaultIsSticky : Prop :=
  ∀ (s : State) (k : FailureKind) (ip : Nat), s.fault = some ⟨k, ip⟩ →
    step s = .fault (.recorded k ip) ∧ hostStep s = (s, some ⟨k, ip⟩)

/-- R152: a step of a halted core changes nothing and returns normally. -/
def Obligations.HaltedStepDoesNothing : Prop :=
  ∀ s : State, s.fault = none → s.halted = true → step s = .next s ∧ hostStep s = (s, none)

/-- R153: a step at `ip >= len` sets `halted` and touches nothing else, and does not fail. -/
def Obligations.EndOfProgramHalts : Prop :=
  ∀ s : State, s.fault = none → s.halted = false → s.prog.length ≤ s.ip →
    step s = .next { s with halted := true } ∧ hostStep s = ({ s with halted := true }, none)

/-- R154: when the hook is enabled and ring 0's glyph is at index 12, every ring takes one extra tick before the
instruction; otherwise nothing happens there. Nothing of the state but `HOOK`, `G` and ring 0's offset decides it (R251). -/
def Obligations.GlyphHookAddsOneTick : Prop :=
  ∀ (s : State) (r : Ring), s.wf = true → s.mem.rings[0]? = some r →
    (s.config.hook = true ∧ glyph r.offset s.mem.gearCount = 12 →
      ∃ m', s.glyphPreTick = { s with mem := m' } ∧ s.mem.turnedAll m' 1) ∧
    (¬ (s.config.hook = true ∧ glyph r.offset s.mem.gearCount = 12) → s.glyphPreTick = s)

/-- 42_cpu_step.md R159, with 60_exceptions.md R211 to R213 (the spec's decisions D16, D27): a step that fails for the
first time records its kind, OutOfRange or IllegalEncoding, and `ip`; beyond the glyph pre-tick it changes nothing. -/
def Obligations.FailingStepRecordsItsFault : Prop :=
  ∀ (s t : State) (f : FaultRecord), s.wf = true → s.fault = none → step s = .next t → t.fault = some f →
    t = { s.glyphPreTick with fault := some f } ∧ f.ip = s.ip ∧
      (f.kind = .outOfRange ∨ f.kind = .illegalEncoding) ∧ hostStep s = (t, some f)

/-- R156, R30: `ip` changes by one place alone, and does so exactly when the step dispatches an instruction and does not
fail, HALT included. -/
def Obligations.IpAdvancesByOne : Prop :=
  ∀ s t : State, s.wf = true → step s = .next t →
    ((∃ i, s.runs i) ∧ t.fault = none → t.ip = s.ip + 1) ∧
    (¬ ((∃ i, s.runs i) ∧ t.fault = none) → t.ip = s.ip)

/-- R31: `halted` is set by HALT and by a step at `ip >= len` alone; no step clears it, and `loadProgram` does. -/
def Obligations.OnlyHaltAndProgramEndHalt : Prop :=
  (∀ s t : State, step s = .next t →
    (s.halted = false → t.halted = true → s.runs .halt ∨ s.prog.length ≤ s.ip) ∧
    (s.halted = true → t = s)) ∧
  ∀ (s t : State) (p : List Slot), s.loadProgram p = some t → t.halted = false

/-- R29, R34, R20, R21: no step changes the program, the configuration, `NR`, `G` or the number of cells of a ring. -/
def Obligations.StepKeepsProgramAndConfig : Prop :=
  ∀ s t : State, step s = .next t →
    t.prog = s.prog ∧ t.config = s.config ∧ t.mem.gearCount = s.mem.gearCount ∧
      t.mem.rings.map (fun r => r.cells.length) = s.mem.rings.map (fun r => r.cells.length)

/-- R23: a step changes a ring's recorded direction only by a SHIFT_RING of that ring, to that instruction's
direction. -/
def Obligations.OnlyShiftRingChangesADirection : Prop :=
  ∀ (s t : State) (n : Nat) (r r' : Ring), s.wf = true → step s = .next t →
    s.mem.rings[n]? = some r → t.mem.rings[n]? = some r' → r'.dir ≠ r.dir →
    ∃ imm, s.runs (.shiftRing n r'.dir imm)

/-- R21: a step changes a cell only by an instruction that writes a register, and only a cell that stores a bit of that
register at the offsets the instruction executes under. -/
def Obligations.OnlyDestinationCellsChange : Prop :=
  ∀ (s t : State) (ring p : Nat), s.wf = true → step s = .next t → t.mem.cell ring p ≠ s.mem.cell ring p →
    ∃ i a, s.runs i ∧ destRegister i = some a ∧ a < s.config.regCount ∧
      s.glyphPreTick.mem.backs (s.regWord a) ring p

/-- 42_cpu_step.md section 3 (R162, an inference the spec marks as its own): a successful step of any instruction but
SHIFT_RING turns every ring, in its own direction, by the end tick, the hook's tick if it fired, and what TICK_ALL
asks. -/
def Obligations.TickAccounting : Prop :=
  ∀ (s t : State) (i : Instr) (n : Nat) (r : Ring), s.wf = true → s.runs i →
    (∀ a dir imm, i ≠ .shiftRing a dir imm) → step s = .next t → t.fault = none → s.mem.rings[n]? = some r →
    ∃ r', t.mem.rings[n]? = some r' ∧ r'.dir = r.dir ∧
      r'.offset = turned s.mem.gearCount r.dir r.offset (s.hookTicks + askedTurn i + 1)

/-- The machine's invariant: the rings in canonical form (R20 to R22), the configuration legal (R34), `0 <= ip <= len`
(R30), the OPEN bounds kept. Every step from every state that has it keeps it. -/
def Obligations.StepKeepsWellFormed : Prop :=
  ∀ s t : State, s.wf = true → step s = .next t → t.wf = true

/-- 42_cpu_step.md section 2 (R160, an inference the spec marks as its own; R161, its decision D28; the recorded fault is its
decision D16): from every well-formed state without a fault, the run ends, halted or faulted, after at most one step more
than the instructions left. -/
def Obligations.EveryRunEnds : Prop :=
  ∀ s : State, s.wf = true → s.fault = none →
    ∃ (k : Nat) (t : State), k ≤ s.prog.length - s.ip + 1 ∧ core.run k s = .next t ∧
      t.wf = true ∧ ((t.halted = true ∧ t.fault = none) ∨ t.fault = some ⟨.outOfRange, t.ip⟩ ∨
        t.fault = some ⟨.illegalEncoding, t.ip⟩)

/-! ### Reset and the host (spec/44_host_interface.md, spec/70_reset_and_hazards.md) -/

/-- R39, with 10_state.md section 6 (R37, R38, R40, R41, which the spec marks as its decisions D11 to D14, D16): what
construction leaves, for every `INIT_DIR`, every `INIT_CELLS` and every configuration it accepts. -/
def Obligations.ConstructionLeavesResetValues : Prop :=
  ∀ (lim : Limits) (base : Nat) (dir : Dir) (cells : Nat → Nat → Bool) (nr g width nreg : Int) (hook : Bool)
    (m : Memory) (s : State),
    constructMachine lim dir cells nr g = .ok m → constructCPU lim base m width nreg hook = .ok s →
    s.wf = true ∧ s.mem = m ∧ s.ip = 0 ∧ s.halted = false ∧ s.prog = [] ∧ s.fault = none ∧
      (m.ringCount : Int) = nr ∧ (m.gearCount : Int) = g ∧
      ∀ (i : Nat) (r : Ring), m.rings[i]? = some r → r.offset = 0 ∧ r.dir = dir ∧
        ∀ p : Nat, p < m.gearCount → r.cells[p]? = some (cells i p)

/-- The state after reset is well formed, runs no instruction and holds no fault; its cells' contents are the model's
choice (notes/assumptions/3.md), on which nothing here rests. -/
def Obligations.ResetIsWellFormed : Prop :=
  State.reset.wf = true ∧ State.reset.ip = 0 ∧ State.reset.halted = false ∧ State.reset.fault = none ∧
    State.reset.prog = []

/-- R190, and 44_host_interface.md section 1 (R191, with the spec's decisions D10, D26): exactly the legal arguments
construct a Machine and a core; any others give InvalidConfiguration. -/
def Obligations.ConstructionChecks : Prop :=
  (∀ (lim : Limits) (dir : Dir) (cells : Nat → Nat → Bool) (nr g : Int),
    if 0 < nr ∧ 0 < g ∧ nr ≤ lim.maxRings ∧ g ≤ lim.maxGears then
      ∃ m, constructMachine lim dir cells nr g = .ok m
    else constructMachine lim dir cells nr g = .error .invalidConfiguration) ∧
  ∀ (lim : Limits) (base : Nat) (m : Memory) (width nreg : Int) (hook : Bool),
    if 0 < nreg ∧
        ((width = 64 ∧ base + 64 ≤ m.gearCount ∧ nreg ≤ m.ringCount) ∨
          (width = 360 ∧ m.gearCount = 360 ∧ nreg ≤ m.ringCount) ∨
          (width = 720 ∧ m.gearCount = 360 ∧ 2 * nreg ≤ m.ringCount)) then
      ∃ s, constructCPU lim base m width nreg hook = .ok s ∧ (profileWidth s.config.profile : Int) = width ∧
        (s.config.regCount : Int) = nreg ∧ s.config.hook = hook ∧ s.config.w64Base = base
    else constructCPU lim base m width nreg hook = .error .invalidConfiguration

/-- 44_host_interface.md section 2 (R192; what it leaves alone and the length bound are the spec's decisions D16, D26):
`loadProgram` replaces the program, sets `ip` to 0 and clears `halted`; the rings and the fault record stay. -/
def Obligations.LoadProgramRestarts : Prop :=
  ∀ (s : State) (p : List Slot),
    (p.length ≤ s.config.limits.maxProgramLen →
      s.loadProgram p = some { s with prog := p, ip := 0, halted := false }) ∧
    (s.config.limits.maxProgramLen < p.length → s.loadProgram p = none)

/-- 60_exceptions.md section 4 (R219; the spec's decision D16): no host transaction but a construction takes a core out
of a fault. -/
def Obligations.OnlyConstructionClearsAFault : Prop :=
  ∀ (lim : Limits) (base : Nat) (dir : Dir) (cells : Nat → Nat → Bool) (s : State) (f : FaultRecord) (c : HostCall),
    s.fault = some f → (∀ nr g, c ≠ .constructMachine nr g) → (∀ w n h, c ≠ .constructCPU w n h) →
    ∃ t, (System.call lim base dir cells (.bound s) c).1 = .bound t ∧ t.fault = some f

/-- 44_host_interface.md section 3 (R204; the spec's decision D30): no inspection call changes anything, in any state. -/
def Obligations.InspectionHasNoSideEffect : Prop :=
  ∀ (lim : Limits) (base : Nat) (dir : Dir) (cells : Nat → Nat → Bool) (sys : System) (k r n i : Int),
    ∀ c ∈ [HostCall.halted, .instructionPointer, .registerBits k, .ringBits r n, .ringOffset r, .ringDirection r,
      .activeGlyph r, .capacity k r n, .getBit r i],
    (System.call lim base dir cells sys c).1 = sys

/-- R196: the register dump has `W` characters, bit 0 first, `'1'` for a set bit; an index outside the bank is out of
range. -/
def Obligations.RegisterDumpIsLsbFirst : Prop :=
  ∀ (s : State) (k : Nat), s.wf = true →
    (k < s.config.regCount →
      ∃ bs : List Bool, s.registerBitList k = .ok bs ∧ s.registerBits k = .ok (bitString bs) ∧
        bs.length = profileWidth s.config.profile ∧
        (bitString bs).toList.length = profileWidth s.config.profile ∧
        ∀ j, j < profileWidth s.config.profile → bs[j]? = some (s.regBit k j) ∧
          (bitString bs).toList[j]? = some (if s.regBit k j then '1' else '0')) ∧
    (s.config.regCount ≤ k → s.registerBits k = .error .outOfRange)

/-- 44_host_interface.md section 3 (R197; the spec's decision D25): the ring dump has `count` characters, character `j` being
`'1'` when logical index `j` reads 1 and `'0'` when it reads 0; a count outside `[0, G]` or a ring outside `[0, NR)` is out
of range. -/
def Obligations.RingDumpListsLogicalIndices : Prop :=
  ∀ (m : Memory) (ring count : Int), m.wf = true →
    (0 ≤ ring ∧ ring < m.ringCount ∧ 0 ≤ count ∧ count ≤ m.gearCount →
      ∃ bs : List Bool, m.ringBitList ring count = .ok bs ∧ m.ringBits ring count = .ok (bitString bs) ∧
        (bs.length : Int) = count ∧ ((bitString bs).toList.length : Int) = count ∧
        ∀ (j : Nat) (b : Bool), bs[j]? = some b →
          m.getBit ring j = .ok b ∧ (bitString bs).toList[j]? = some (if b then '1' else '0')) ∧
    (¬ (0 ≤ ring ∧ ring < m.ringCount ∧ 0 ≤ count ∧ count ≤ m.gearCount) →
      m.ringBitList ring count = .error .outOfRange ∧ m.ringBits ring count = .error .outOfRange)

/-- 44_host_interface.md section 3 (R200; the failures are the spec's decision D24): the capacity report is the exact number
`2^(rings * gears * bits)`. -/
def Obligations.CapacityIsExact : Prop :=
  (∀ r g b : Nat, 0 < r → 0 < g → b = 1 ∨ b = 2 → capacity r g b = .ok (2 ^ (r * g * b))) ∧
  ∀ r g b : Int, r ≤ 0 ∨ g ≤ 0 ∨ (b ≠ 1 ∧ b ≠ 2) → capacity r g b = .error .invalidConfiguration

/-- 44_host_interface.md section 4 (R201, an inference the spec marks as its own): the host sets register `k` to `v`, modulo
`2^W`, by one `setBit` a bit, and no cell of another register changes. -/
def Obligations.HostWritesARegister : Prop :=
  ∀ (s : State) (k v : Nat), s.wf = true → k < s.config.regCount →
    ∃ m, s.writeRegister k v = .ok (s.setMem m) ∧ m.wf = true ∧ s.mem.sameOutside m (s.regWord k) ∧
      m.wordValue (s.regWord k) = v % 2 ^ profileWidth s.config.profile

/-! ### The rotation hazards (spec/70_reset_and_hazards.md section 3, inferences the spec marks as its own) -/

/-- R246: when a register fills its ring, a turn of the ring by `n` places rotates the register's value by `n`, toward
bit 0 for Left and away from it for Right. -/
def Obligations.FullRingTurnRotatesTheValue : Prop :=
  ∀ (s : State) (k j : Nat) (r : Ring) (n : Int), s.wf = true → k < s.config.regCount →
    (s.config.profile = .w360 ∨ (s.config.profile = .w64 ∧ s.config.w64Base = 0 ∧ s.mem.gearCount = 64)) →
    s.mem.rings[k]? = some r → j < s.mem.gearCount →
    (s.setMem (s.mem.rotateAll n)).regBit k j =
      s.regBit k ((((j : Int) + dirSign r.dir * n) % s.mem.gearCount).toNat)

/-- R247: the two halves of a W720 register turn independently, each on its own ring; no bit moves between them. -/
def Obligations.W720HalvesTurnApart : Prop :=
  ∀ (s : State) (k j : Nat) (lo hi : Ring) (n : Int), s.wf = true → k < s.config.regCount →
    s.config.profile = .w720 → s.mem.rings[2 * k]? = some lo → s.mem.rings[2 * k + 1]? = some hi → j < 360 →
    (s.setMem (s.mem.rotateAll n)).regBit k j =
      s.regBit k ((((j : Int) + dirSign lo.dir * n) % 360).toNat) ∧
    (s.setMem (s.mem.rotateAll n)).regBit k (360 + j) =
      s.regBit k (360 + (((j : Int) + dirSign hi.dir * n) % 360).toNat)

/-- R248: a W64 register is a window of its ring: after a Left turn by `n`, bit `j` reads what logical index
`(W64_BASE + j + n) mod G` read before, in the window or not. -/
def Obligations.WindowedW64ReadsItsRing : Prop :=
  ∀ (s : State) (k j : Nat) (r : Ring) (n : Int), s.wf = true → k < s.config.regCount →
    s.config.profile = .w64 → s.mem.rings[k]? = some r → r.dir = .left → j < 64 →
    s.mem.getBit k (((s.config.w64Base + j : Nat) + n) % s.mem.gearCount) =
      .ok ((s.setMem (s.mem.rotateAll n)).regBit k j)

/-- R249: a total turn that is a multiple of `G` restores the rings, and with them every register. -/
def Obligations.WholeTurnsRestoreTheRings : Prop :=
  ∀ (m : Memory) (l : List Int), m.wf = true → (m.gearCount : Int) ∣ l.sum → l.foldl Memory.rotateAll m = m
end

