-- ==== Sys2Proof/Laws/State.lean ====
section
/-! SUPPORT. What each named update of the state does to each field, for simp; and what reset is. -/

namespace Sys2Proof.Machine

section
variable (s : State) (m : Memory) (k : FailureKind)

@[simp] theorem State.setMem_config : (s.setMem m).config = s.config := rfl
@[simp] theorem State.setMem_mem : (s.setMem m).mem = m := rfl
@[simp] theorem State.setMem_prog : (s.setMem m).prog = s.prog := rfl
@[simp] theorem State.setMem_ip : (s.setMem m).ip = s.ip := rfl
@[simp] theorem State.setMem_halted : (s.setMem m).halted = s.halted := rfl
@[simp] theorem State.setMem_fault : (s.setMem m).fault = s.fault := rfl

@[simp] theorem State.setHalted_config : s.setHalted.config = s.config := rfl
@[simp] theorem State.setHalted_mem : s.setHalted.mem = s.mem := rfl
@[simp] theorem State.setHalted_prog : s.setHalted.prog = s.prog := rfl
@[simp] theorem State.setHalted_ip : s.setHalted.ip = s.ip := rfl
@[simp] theorem State.setHalted_halted : s.setHalted.halted = true := rfl
@[simp] theorem State.setHalted_fault : s.setHalted.fault = s.fault := rfl

@[simp] theorem State.endOfProgram_eq : s.endOfProgram = s.setHalted := rfl

@[simp] theorem State.raise_config : (s.raise k).config = s.config := rfl
@[simp] theorem State.raise_mem : (s.raise k).mem = s.mem := rfl
@[simp] theorem State.raise_prog : (s.raise k).prog = s.prog := rfl
@[simp] theorem State.raise_ip : (s.raise k).ip = s.ip := rfl
@[simp] theorem State.raise_halted : (s.raise k).halted = s.halted := rfl
@[simp] theorem State.raise_fault : (s.raise k).fault = some ⟨k, s.ip⟩ := rfl

@[simp] theorem State.retire_config : s.retire.config = s.config := rfl
@[simp] theorem State.retire_mem : s.retire.mem = s.mem.rotateAll 1 := rfl
@[simp] theorem State.retire_prog : s.retire.prog = s.prog := rfl
@[simp] theorem State.retire_ip : s.retire.ip = s.ip + 1 := rfl
@[simp] theorem State.retire_halted : s.retire.halted = s.halted := rfl
@[simp] theorem State.retire_fault : s.retire.fault = s.fault := rfl

/-- The glyph hook does nothing or one global tick. -/
theorem State.glyphPreTick_cases :
    s.glyphPreTick = s ∨
      (s.config.hook = true ∧ s.mem.activeGlyph 0 = .ok glyphTrigger ∧
        s.glyphPreTick = s.setMem (s.mem.rotateAll 1)) := by
  unfold State.glyphPreTick
  split
  · rename_i g hg
    split
    · rename_i h; exact .inr ⟨h.1, by rw [hg, h.2], rfl⟩
    · exact .inl rfl
  · exact .inl rfl

@[simp] theorem State.glyphPreTick_config : s.glyphPreTick.config = s.config := by
  obtain h | ⟨-, -, h⟩ := s.glyphPreTick_cases <;> rw [h]; rfl
@[simp] theorem State.glyphPreTick_prog : s.glyphPreTick.prog = s.prog := by
  obtain h | ⟨-, -, h⟩ := s.glyphPreTick_cases <;> rw [h]; rfl
@[simp] theorem State.glyphPreTick_ip : s.glyphPreTick.ip = s.ip := by
  obtain h | ⟨-, -, h⟩ := s.glyphPreTick_cases <;> rw [h]; rfl
@[simp] theorem State.glyphPreTick_halted : s.glyphPreTick.halted = s.halted := by
  obtain h | ⟨-, -, h⟩ := s.glyphPreTick_cases <;> rw [h]; rfl
@[simp] theorem State.glyphPreTick_fault : s.glyphPreTick.fault = s.fault := by
  obtain h | ⟨-, -, h⟩ := s.glyphPreTick_cases <;> rw [h]; rfl

/-- The register bank's binding depends on the configuration alone. -/
theorem State.regWord_congr {s t : State} (h : t.config = s.config) (k : Nat) : t.regWord k = s.regWord k := by
  simp only [State.regWord, h]

@[simp] theorem State.setMem_regWord (i : Nat) : (s.setMem m).regWord i = s.regWord i := rfl

end

/-- The characters of a dump: one for each bit. -/
@[simp] theorem bitString_toList (bs : List Bool) :
    (bitString bs).toList = bs.map fun b => if b then '1' else '0' := by
  simp [bitString]

end Sys2Proof.Machine
end

