-- ==== Sys2Proof/Laws/Memory.lean ====
section
/-! SUPPORT. The ring substrate: where a bit lives, reading after writing, that every memory operation keeps the
canonical form, and what rotations leave alone (spec/40_ring_machine.md). -/

namespace Sys2Proof.Machine

/-! ### Rings -/

@[simp] theorem Ring.setCell_offset (r : Ring) (p : Nat) (b : Bool) : (r.setCell p b).offset = r.offset := rfl
@[simp] theorem Ring.setCell_dir (r : Ring) (p : Nat) (b : Bool) : (r.setCell p b).dir = r.dir := rfl
@[simp] theorem Ring.setCell_length (r : Ring) (p : Nat) (b : Bool) :
    (r.setCell p b).cells.length = r.cells.length := by simp [Ring.setCell]

@[simp] theorem Ring.rotate_cells (g : Nat) (d : Dir) (k : Int) (r : Ring) : (r.rotate g d k).cells = r.cells := by
  cases d <;> rfl

@[simp] theorem Ring.rotate_dir (g : Nat) (d : Dir) (k : Int) (r : Ring) : (r.rotate g d k).dir = d := by
  cases d <;> rfl

/-- R101 with the reduction of R100 folded in: the offset turns by the whole of `k`, modulo `G`. -/
theorem Ring.rotate_offset {g : Nat} (hg : 0 < g) (d : Dir) (k : Int) (r : Ring) :
    (r.rotate g d k).offset = turned g d r.offset k := by
  have hs : ((normalizeSteps g k : Nat) : Int) = k % (g : Int) := by
    rw [normalizeSteps, Int.toNat_of_nonneg (Int.emod_nonneg _ (by omega))]
  cases d with
  | left => simp only [Ring.rotate, turned, dirSign, hs, one_mul, Int.add_emod_emod]
  | right =>
    simp only [Ring.rotate, turned, dirSign, hs, neg_mul, one_mul, ← sub_eq_add_neg]
    rw [Int.sub_emod, Int.emod_emod, ← Int.sub_emod]

theorem turned_lt {g : Nat} (hg : 0 < g) (d : Dir) (o : Nat) (k : Int) : turned g d o k < g := by
  have h1 := Int.emod_nonneg ((o : Int) + dirSign d * k) (show (g : Int) ≠ 0 by omega)
  have h2 := Int.emod_lt_of_pos ((o : Int) + dirSign d * k) (show (0 : Int) < g by omega)
  unfold turned; omega

theorem Ring.rotate_eq {g : Nat} (hg : 0 < g) (d : Dir) (k : Int) (r : Ring) :
    r.rotate g d k = { r with offset := turned g d r.offset k, dir := d } := by
  have h := Ring.rotate_offset hg d k r
  have hc := Ring.rotate_cells g d k r
  have hd := Ring.rotate_dir g d k r
  cases hr : r.rotate g d k
  rw [hr] at h hc hd
  simp_all

/-- Two turns in one direction add up. -/
theorem turned_turned {g : Nat} (hg : 0 < g) (d : Dir) (o : Nat) (j k : Int) :
    turned g d (turned g d o j) k = turned g d o (j + k) := by
  have h1 := Int.emod_nonneg ((o : Int) + dirSign d * j) (show (g : Int) ≠ 0 by omega)
  unfold turned
  rw [Int.toNat_of_nonneg h1, Int.emod_add_emod, add_assoc, ← mul_add]

/-- Where a logical index of a ring lives (R102). -/
theorem Ring.logicalToPhysical_natCast (g : Nat) (r : Ring) (i : Nat) :
    r.logicalToPhysical g (i : Int) = if i < g then .ok ((i + r.offset) % g) else .error .outOfRange := by
  simp [Ring.logicalToPhysical]

/-- R58, R114 (c): different logical indices of a ring live in different cells. -/
theorem shifted_inj {g o i j : Nat} (hi : i < g) (hj : j < g) (h : (i + o) % g = (j + o) % g) : i = j := by
  have : i ≡ j [MOD g] := Nat.ModEq.add_right_cancel' o h
  exact (Nat.mod_eq_of_lt hi) ▸ (Nat.mod_eq_of_lt hj) ▸ this

/-! ### The canonical form -/

theorem Memory.wf_iff (m : Memory) : m.wf = true ↔
    0 < m.gearCount ∧ 0 < m.ringCount ∧
      ∀ i : Nat, ∀ r, m.rings[i]? = some r → r.cells.length = m.gearCount ∧ r.offset < m.gearCount := by
  simp only [Memory.wf, Bool.and_eq_true, decide_eq_true_eq, List.all_eq_true, and_assoc]
  refine and_congr_right fun _ => and_congr_right fun _ => ⟨fun h i r hr => ?_, fun h r hr => ?_⟩
  · exact h r (List.mem_of_getElem? hr)
  · obtain ⟨i, hi⟩ := List.mem_iff_getElem?.1 hr; exact h i r hi

/-- The ring check on an index that is a natural number. -/
theorem Memory.ringAt_natCast (m : Memory) (i : Nat) :
    m.ringAt (i : Int) = match m.rings[i]? with | some r => .ok r | none => .error .outOfRange := by
  cases h : m.rings[i]? <;> simp [Memory.ringAt, h]

/-- What it means that the ring check passes. -/
theorem Memory.ringAt_eq_ok {m : Memory} {i : Int} {r : Ring} :
    m.ringAt i = .ok r ↔ 0 ≤ i ∧ m.rings[i.toNat]? = some r := by
  unfold Memory.ringAt
  split
  · rename_i h
    cases m.rings[i.toNat]? <;> simp [h]
  · rename_i h; simp [h]

theorem Memory.ringAt_ok {m : Memory} {i : Nat} {r : Ring} (h : m.rings[i]? = some r) :
    m.ringAt (i : Int) = .ok r := by rw [m.ringAt_natCast, h]

theorem Memory.exists_ring {m : Memory} {i : Nat} (h : i < m.ringCount) : ∃ r, m.rings[i]? = some r :=
  ⟨_, List.getElem?_eq_getElem h⟩

/-- R106: every ring index outside `[0, NR)` is out of range. -/
theorem Memory.ringAt_error {m : Memory} {i : Int} (h : i < 0 ∨ (m.ringCount : Int) ≤ i) :
    m.ringAt i = .error .outOfRange := by
  unfold Memory.ringAt
  split
  · have : m.rings[i.toNat]? = none := by
      rw [List.getElem?_eq_none]; unfold Memory.ringCount at h; omega
    rw [this]
  · rfl

/-! ### One cell -/

/-- The Machine with physical cell `p` of ring `ring` replaced. -/
def Memory.setCell (m : Memory) (ring p : Nat) (b : Bool) : Memory :=
  { m with rings := m.rings.modify ring fun r => r.setCell p b }

theorem Memory.setCell_rings (m : Memory) (ring p : Nat) (b : Bool) (i : Nat) :
    (m.setCell ring p b).rings[i]? =
      (m.rings[i]?).map fun r => if ring = i then r.setCell p b else r := by
  simp only [Memory.setCell, List.getElem?_modify]
  cases m.rings[i]? <;> simp

@[simp] theorem Memory.setCell_gearCount (m : Memory) (ring p : Nat) (b : Bool) :
    (m.setCell ring p b).gearCount = m.gearCount := rfl

@[simp] theorem Memory.setCell_shape (m : Memory) (ring p : Nat) (b : Bool) :
    (m.setCell ring p b).shape = m.shape := by
  refine Prod.ext rfl (List.ext_getElem? fun i => ?_)
  simp only [Memory.shape, List.getElem?_map, m.setCell_rings, Option.map_map]
  congr 1; funext r; simp only [Function.comp]; split <;> simp

/-- A cell of the Machine: the ring exists and has that many cells. -/
def Memory.hasCell (m : Memory) (ring p : Nat) : Prop :=
  ∃ r, m.rings[ring]? = some r ∧ p < r.cells.length

theorem Memory.cell_setCell_self {m : Memory} {ring p : Nat} (h : m.hasCell ring p) (b : Bool) :
    (m.setCell ring p b).cell ring p = b := by
  obtain ⟨r, hr, hp⟩ := h
  simp [Memory.cell, m.setCell_rings, hr, Ring.cell, Ring.setCell, hp]

theorem Memory.cell_setCell_ne (m : Memory) {ring p ring' p' : Nat} (h : (ring', p') ≠ (ring, p)) (b : Bool) :
    (m.setCell ring p b).cell ring' p' = m.cell ring' p' := by
  simp only [Memory.cell, m.setCell_rings]
  cases m.rings[ring']? with
  | none => rfl
  | some r =>
    by_cases hq : ring = ring'
    · subst hq
      have : p ≠ p' := fun e => h (by rw [e])
      simp [Ring.cell, Ring.setCell, List.getElem?_set_ne this]
    · simp [hq]

/-! ### Bit accesses, through the cell they reach -/

theorem Memory.getBit_eq_cell (m : Memory) (ring i : Int) :
    m.getBit ring i = match m.locate ring i with
      | .ok q => .ok (m.cell q.1 q.2)
      | .error e => .error e := by
  unfold Memory.getBit Memory.locate
  cases hr : m.ringAt ring with
  | error e => rfl
  | ok r =>
    simp only [Ring.getBit]
    cases r.logicalToPhysical m.gearCount i <;> simp [Memory.cell, (Memory.ringAt_eq_ok.1 hr).2]

theorem Memory.putBit_eq_setCell (m : Memory) (ring i : Int) (b : Bool) :
    m.putBit ring i b = match m.locate ring i with
      | .ok q => .ok (m.setCell q.1 q.2 b)
      | .error e => .error e := by
  unfold Memory.putBit Memory.locate
  cases hr : m.ringAt ring with
  | error e => rfl
  | ok r =>
    simp only [Ring.putBit]
    cases r.logicalToPhysical m.gearCount i with
    | error e => rfl
    | ok p =>
      simp only [Memory.setCell, Memory.setRing, Except.ok.injEq, Memory.mk.injEq, true_and]
      rw [List.modify_eq_set_getElem?]
      simp [(Memory.ringAt_eq_ok.1 hr).2]

/-- Where a bit lives depends on the shape alone. -/
theorem Memory.locate_congr {m m' : Memory} (h : m'.shape = m.shape) (ring i : Int) :
    m'.locate ring i = m.locate ring i := by
  obtain ⟨hg, hr⟩ := Prod.ext_iff.1 h
  have h' : (m'.rings[ring.toNat]?).map (fun r => (r.offset, r.dir, r.cells.length)) =
      (m.rings[ring.toNat]?).map (fun r => (r.offset, r.dir, r.cells.length)) := by
    simpa [Memory.shape, List.getElem?_map] using congrArg (·[ring.toNat]?) hr
  simp only [Memory.shape] at hg
  unfold Memory.locate Memory.ringAt
  by_cases hz : 0 ≤ ring
  · simp only [hz, if_true]
    cases h1 : m'.rings[ring.toNat]? <;> cases h2 : m.rings[ring.toNat]? <;> simp [h1, h2] at h'
    · rfl
    · simp [Ring.logicalToPhysical, hg, h'.1]
  · simp only [hz, if_false]

/-- In a canonical Machine a located bit is one of its cells. -/
theorem Memory.hasCell_of_locate {m : Memory} (hw : m.wf = true) {ring i : Int} {q : Nat × Nat}
    (h : m.locate ring i = .ok q) : m.hasCell q.1 q.2 := by
  obtain ⟨hg, -, hr⟩ := m.wf_iff.1 hw
  unfold Memory.locate at h
  cases hring : m.ringAt ring with
  | error e => rw [hring] at h; cases h
  | ok r =>
    have hq := (Memory.ringAt_eq_ok.1 hring).2
    simp only [hring, Ring.logicalToPhysical] at h
    split at h <;> try cases h
    rename_i hl
    split at hl <;> cases hl
    exact ⟨r, hq, by rw [(hr _ _ hq).1]; exact Nat.mod_lt _ hg⟩

theorem Memory.shape_gearCount {m m' : Memory} (h : m'.shape = m.shape) : m'.gearCount = m.gearCount :=
  congrArg Prod.fst h

theorem Memory.shape_ringCount {m m' : Memory} (h : m'.shape = m.shape) : m'.ringCount = m.ringCount := by
  simpa [Memory.shape, Memory.ringCount] using congrArg (fun x => x.2.length) h

theorem Memory.shape_ring {m m' : Memory} (h : m'.shape = m.shape) {i : Nat} {r' : Ring}
    (hr : m'.rings[i]? = some r') :
    ∃ r, m.rings[i]? = some r ∧ r'.offset = r.offset ∧ r'.dir = r.dir ∧ r'.cells.length = r.cells.length := by
  have h' : (m'.rings[i]?).map (fun r => (r.offset, r.dir, r.cells.length)) =
      (m.rings[i]?).map (fun r => (r.offset, r.dir, r.cells.length)) := by
    simpa [Memory.shape, List.getElem?_map] using congrArg (fun x => x.2[i]?) h
  rw [hr] at h'
  cases hm : m.rings[i]? with
  | none => simp [hm] at h'
  | some r => exact ⟨r, rfl, by simpa [hm] using h'⟩

/-- The canonical form depends on the shape alone. -/
theorem Memory.wf_of_shape {m m' : Memory} (h : m'.shape = m.shape) (hw : m.wf = true) : m'.wf = true := by
  obtain ⟨hg, hn, hr⟩ := m.wf_iff.1 hw
  refine m'.wf_iff.2 ⟨by rw [Memory.shape_gearCount h]; exact hg, by rw [Memory.shape_ringCount h]; exact hn, ?_⟩
  intro i r' hi
  obtain ⟨r, hri, ho, -, hl⟩ := Memory.shape_ring h hi
  rw [hl, ho, Memory.shape_gearCount h]
  exact hr i r hri

/-! ### Every memory operation keeps the canonical form -/

theorem Memory.putBit_keeps_wf {m m' : Memory} {ring i : Int} {b : Bool} (h : m.putBit ring i b = .ok m')
    (hw : m.wf = true) : m'.wf = true := by
  rw [m.putBit_eq_setCell] at h
  cases hl : m.locate ring i <;> rw [hl] at h <;> cases h
  exact Memory.wf_of_shape (m.setCell_shape _ _ _) hw

theorem Memory.setBit_keeps_wf {m m' : Memory} {ring i v : Int} (h : m.setBit ring i v = .ok m')
    (hw : m.wf = true) : m'.wf = true := Memory.putBit_keeps_wf h hw

theorem Memory.setRing_rings (m : Memory) {i : Nat} {r : Ring} (h : i < m.ringCount) (j : Nat) :
    (m.setRing i r).rings[j]? = if i = j then some r else m.rings[j]? := by
  simp only [Memory.setRing, List.getElem?_set]
  split
  · rename_i e; subst e
    have : i < m.rings.length := h
    simp [this]
  · rfl

/-- `Machine.rotate` on a ring that exists (R107). -/
theorem Memory.rotate_ok {m : Memory} {i : Nat} {r : Ring} (hr : m.rings[i]? = some r) (d : Dir) (k : Int) :
    m.rotate (i : Int) d k = .ok (m.setRing i (r.rotate m.gearCount d k)) := by
  simp [Memory.rotate, Memory.ringAt_ok hr]

theorem Memory.rotate_keeps_wf {m m' : Memory} {ring : Int} {d : Dir} {k : Int} (h : m.rotate ring d k = .ok m')
    (hw : m.wf = true) : m'.wf = true := by
  obtain ⟨hg, hn, hr⟩ := m.wf_iff.1 hw
  unfold Memory.rotate at h
  cases hq : m.ringAt ring with
  | error e => rw [hq] at h; cases h
  | ok r =>
    rw [hq] at h; cases h
    have hr0 := (Memory.ringAt_eq_ok.1 hq).2
    have hlt : ring.toNat < m.ringCount := by
      unfold Memory.ringCount; exact (List.getElem?_eq_some_iff.1 hr0).1
    refine (Memory.wf_iff _).2 ⟨hg, by simpa [Memory.setRing, Memory.ringCount] using hn, fun i x hx => ?_⟩
    rw [m.setRing_rings hlt] at hx
    split at hx
    · cases hx
      exact ⟨by rw [Ring.rotate_cells]; exact (hr _ _ hr0).1,
        by rw [Ring.rotate_offset hg]; exact turned_lt hg _ _ _⟩
    · exact hr i x hx

@[simp] theorem Memory.rotateAll_gearCount (m : Memory) (k : Int) : (m.rotateAll k).gearCount = m.gearCount := rfl

@[simp] theorem Memory.rotateAll_ringCount (m : Memory) (k : Int) : (m.rotateAll k).ringCount = m.ringCount := by
  simp [Memory.rotateAll, Memory.ringCount]

theorem Memory.rotateAll_rings (m : Memory) (k : Int) (i : Nat) :
    (m.rotateAll k).rings[i]? = (m.rings[i]?).map fun r => r.rotate m.gearCount r.dir k := by
  simp [Memory.rotateAll]

theorem Memory.rotateAll_keeps_wf {m : Memory} (k : Int) (hw : m.wf = true) : (m.rotateAll k).wf = true := by
  obtain ⟨hg, hn, hr⟩ := m.wf_iff.1 hw
  refine (Memory.wf_iff _).2 ⟨hg, by simpa using hn, fun i x hx => ?_⟩
  rw [m.rotateAll_rings] at hx
  obtain ⟨r, hri, rfl⟩ := Option.map_eq_some_iff.1 hx
  exact ⟨by simpa using (hr i r hri).1, by rw [Ring.rotate_offset hg]; exact turned_lt hg _ _ _⟩

/-- A flipped ring has as many cells, and the offset and direction it had (R105). -/
theorem Ring.flipBit_keeps {g : Nat} {r r' : Ring} {i : Int} (h : r.flipBit g i = .ok r') :
    r'.cells.length = r.cells.length ∧ r'.offset = r.offset ∧ r'.dir = r.dir := by
  unfold Ring.flipBit at h
  cases hp : r.logicalToPhysical g i <;> rw [hp] at h <;> cases h
  exact ⟨r.setCell_length _ _, rfl, rfl⟩

/-- A Machine just constructed is in canonical form (R37). -/
theorem Memory.initial_wf {n g : Nat} (hn : 0 < n) (hg : 0 < g) (d : Dir) (cells : Nat → Nat → Bool) :
    (Memory.initial n g d cells).wf = true := by
  refine (Memory.wf_iff _).2 ⟨hg, by simpa [Memory.initial, Memory.ringCount] using hn, fun i r hr => ?_⟩
  simp only [Memory.initial, List.getElem?_map] at hr
  obtain ⟨x, -, rfl⟩ := Option.map_eq_some_iff.1 hr
  exact ⟨by simp [Ring.initial, Memory.initial], hg⟩

/-- The rings of `State.reset` are in canonical form. -/
theorem Memory.reset_wf : State.reset.mem.wf = true := Memory.initial_wf (by decide) (by decide) _ _

/-- Rotation moves no cell (R21, R115). -/
@[simp] theorem Memory.rotateAll_cell (m : Memory) (k : Int) (ring p : Nat) :
    (m.rotateAll k).cell ring p = m.cell ring p := by
  unfold Memory.cell
  rw [m.rotateAll_rings]
  cases m.rings[ring]? <;> simp [Ring.cell]

end Sys2Proof.Machine
end

