-- ==== Sys2Proof/Laws/Operands.lean ====
section
/-! SUPPORT. Words: the cell behind each bit, that a Word the Machine holds has one cell of its own per bit, and that
the registers of a well-formed core are such Words and share no cell (spec/41_word_alu.md, spec/10_state.md R26). -/

namespace Sys2Proof.Machine

/-- R131's pair, for a bit in range. -/
def wordIndex (w : WordDesc) (j : Nat) : Nat × Nat :=
  match w with
  | .w64 ring base => (ring, base + j)
  | .w360 ring => (ring, j)
  | .w720 lo hi => if j < 360 then (lo, j) else (hi, j - 360)

theorem WordDesc.resolveBit_natCast (w : WordDesc) (j : Nat) :
    w.resolveBit (j : Int) = if j < w.width then .ok (wordIndex w j) else .error .outOfRange := by
  unfold WordDesc.resolveBit
  simp only [Int.natCast_nonneg, true_and, Nat.cast_lt, Int.toNat_natCast]
  split
  · cases w <;> simp only [wordIndex]
    rename_i lo hi h
    by_cases hj : j < 360
    · have : (j : Int) < 360 := by omega
      simp [hj, this]
    · have : ¬ (j : Int) < 360 := by omega
      simp [hj, this]
  · rfl

theorem Memory.wordGet_eq_cell (m : Memory) (w : WordDesc) (j : Nat) :
    m.wordGet w j = match m.wordCell w j with
      | .ok q => .ok (m.cell q.1 q.2)
      | .error e => .error e := by
  unfold Memory.wordGet Memory.wordCell
  cases w.resolveBit j with
  | error e => rfl
  | ok q => exact m.getBit_eq_cell _ _

theorem Memory.wordSet_eq_setCell (m : Memory) (w : WordDesc) (j : Nat) (b : Bool) :
    m.wordSet w j b = match m.wordCell w j with
      | .ok q => .ok (m.setCell q.1 q.2 b)
      | .error e => .error e := by
  unfold Memory.wordSet Memory.wordCell
  cases w.resolveBit j with
  | error e => rfl
  | ok q => exact m.putBit_eq_setCell _ _ _

theorem Memory.wordBit_eq_cell {m : Memory} {w : WordDesc} {j : Nat} {q : Nat × Nat}
    (h : m.wordCell w j = .ok q) : m.wordBit w j = m.cell q.1 q.2 := by
  simp [Memory.wordBit, m.wordGet_eq_cell, h]

theorem Memory.wordCell_congr {m m' : Memory} (h : m'.shape = m.shape) (w : WordDesc) (j : Nat) :
    m'.wordCell w j = m.wordCell w j := by
  unfold Memory.wordCell
  cases w.resolveBit j with
  | error e => rfl
  | ok q => exact Memory.locate_congr h _ _

theorem Memory.hasCell_of_wordCell {m : Memory} (hw : m.wf = true) {w : WordDesc} {j : Nat} {q : Nat × Nat}
    (h : m.wordCell w j = .ok q) : m.hasCell q.1 q.2 := by
  unfold Memory.wordCell at h
  cases hr : w.resolveBit j with
  | error e => rw [hr] at h; cases h
  | ok p => rw [hr] at h; exact Memory.hasCell_of_locate hw h

/-- The place of a Word's bit is in the Machine. -/
theorem Memory.wordIndex_bounds {m : Memory} {w : WordDesc} (h : m.holdsWord w = true) {j : Nat}
    (hj : j < w.width) : (wordIndex w j).1 < m.ringCount ∧ (wordIndex w j).2 < m.gearCount := by
  cases w <;> simp [Memory.holdsWord, WordDesc.width, wordIndex] at *
  · omega
  · omega
  · split <;> (simp only; omega)

/-- Different bits of a Word the Machine holds have different places. -/
theorem Memory.wordIndex_inj {m : Memory} {w : WordDesc} (h : m.holdsWord w = true) {i j : Nat}
    (hi : i < w.width) (hj : j < w.width) (he : wordIndex w i = wordIndex w j) : i = j := by
  cases w <;> simp [Memory.holdsWord, WordDesc.width, wordIndex] at *
  · omega
  · omega
  · split at he <;> split at he <;> simp at he <;> omega

/-- The cell behind a bit of a Word the Machine holds, through the ring's offset (R58). -/
theorem Memory.wordCell_ok {m : Memory} {w : WordDesc} (h : m.holdsWord w = true) {j : Nat} (hj : j < w.width) :
    ∃ r, m.rings[(wordIndex w j).1]? = some r ∧
      m.wordCell w j = .ok ((wordIndex w j).1, ((wordIndex w j).2 + r.offset) % m.gearCount) := by
  obtain ⟨h1, h2⟩ := Memory.wordIndex_bounds h hj
  obtain ⟨r, hr⟩ := Memory.exists_ring h1
  refine ⟨r, hr, ?_⟩
  simp [Memory.wordCell, w.resolveBit_natCast, hj, Memory.locate, Memory.ringAt_ok hr,
    Ring.logicalToPhysical_natCast, h2]

/-- Different bits of a Word the Machine holds are different cells. -/
theorem Memory.wordCell_inj {m : Memory} {w : WordDesc} (h : m.holdsWord w = true) {i j : Nat} (hi : i < w.width)
    (hj : j < w.width) (he : m.wordCell w i = m.wordCell w j) : i = j := by
  obtain ⟨r, hr, h1⟩ := Memory.wordCell_ok h hi
  obtain ⟨r', hr', h2⟩ := Memory.wordCell_ok h hj
  rw [h1, h2, Except.ok.injEq, Prod.mk.injEq] at he
  have e := he.1
  rw [e, hr', Option.some.injEq] at hr
  subst hr
  exact Memory.wordIndex_inj h hi hj
    (Prod.ext e (shifted_inj (Memory.wordIndex_bounds h hi).2 (Memory.wordIndex_bounds h hj).2 he.2))

/-- Words on different rings share no cell. -/
theorem Memory.noSharedCell_of_rings {m : Memory} {v w : WordDesc} (hv : m.holdsWord v = true)
    (hw : m.holdsWord w = true)
    (h : ∀ i j, i < v.width → j < w.width → (wordIndex v i).1 ≠ (wordIndex w j).1) : m.noSharedCell v w := by
  intro i j hi hj he
  obtain ⟨r, -, h1⟩ := Memory.wordCell_ok hv hi
  obtain ⟨r', -, h2⟩ := Memory.wordCell_ok hw hj
  rw [h1, h2, Except.ok.injEq, Prod.mk.injEq] at he
  exact h i j hi hj he.1

/-! ### Registers -/

theorem State.wf_iff (s : State) : s.wf = true ↔
    s.mem.wf = true ∧ configLegal s.config.profile s.config.regCount s.config.w64Base s.mem = true ∧
      s.ip ≤ s.prog.length ∧ s.prog.length ≤ s.config.limits.maxProgramLen ∧
      s.mem.ringCount ≤ s.config.limits.maxRings ∧ s.mem.gearCount ≤ s.config.limits.maxGears := by
  simp [State.wf, and_assoc]

@[simp] theorem State.regWord_width (s : State) (k : Nat) :
    (s.regWord k).width = profileWidth s.config.profile := by
  unfold State.regWord; cases s.config.profile <;> rfl

/-- R191's checks make every register a Word the Machine holds. -/
theorem State.holdsWord_regWord {s : State} (h : s.wf = true) {k : Nat} (hk : k < s.config.regCount) :
    s.mem.holdsWord (s.regWord k) = true := by
  have hc := (s.wf_iff.1 h).2.1
  unfold State.regWord
  cases hp : s.config.profile <;> simp [configLegal, hp] at hc <;> simp [Memory.holdsWord] <;> omega

/-- R26, R191: the rings behind different registers are disjoint. -/
theorem regWord_rings_disjoint (s : State) {k l : Nat} (h : k ≠ l) (i j : Nat) :
    (wordIndex (s.regWord k) i).1 ≠ (wordIndex (s.regWord l) j).1 := by
  unfold State.regWord
  cases s.config.profile <;> simp only [wordIndex] <;> (try exact h)
  split <;> split <;> simp <;> omega

theorem State.noSharedCell_regs {s : State} (h : s.wf = true) {k l : Nat} (hk : k < s.config.regCount)
    (hl : l < s.config.regCount) (hne : k ≠ l) : s.mem.noSharedCell (s.regWord k) (s.regWord l) :=
  Memory.noSharedCell_of_rings (s.holdsWord_regWord h hk) (s.holdsWord_regWord h hl)
    fun i j _ _ => regWord_rings_disjoint s hne i j

/-! ### Values -/

theorem natOfBits_lt (f : Nat → Bool) (n : Nat) : natOfBits f n < 2 ^ n := by
  induction n with
  | zero => simp [natOfBits]
  | succ n ih =>
    have : (f n).toNat ≤ 1 := Bool.toNat_le _
    have h2 : (f n).toNat * 2 ^ n ≤ 1 * 2 ^ n := Nat.mul_le_mul_right _ this
    simp only [natOfBits, Nat.pow_succ]; omega

theorem natOfBits_congr {f g : Nat → Bool} {n : Nat} (h : ∀ j, j < n → f j = g j) : natOfBits f n = natOfBits g n := by
  induction n with
  | zero => rfl
  | succ n ih => simp only [natOfBits]; rw [ih fun j hj => h j (by omega), h n (by omega)]

end Sys2Proof.Machine
end

