-- ==== Sys2Proof/Laws/Alu.lean ====
section
/-! SUPPORT. What one run of the bit-serial loop does, said once for every bit function (spec/41_word_alu.md R134 to
R141), and the adder's arithmetic (R138). -/

namespace Sys2Proof.Machine

/-- The carry after `n` positions from position `j` with carry `c` in, for input bits `x` and `y`. -/
def carryAfter (f : BitCell) (x y : Nat → Bool) : Nat → Bool → Nat → Bool
  | _, c, 0 => c
  | j, c, n + 1 => carryAfter f x y (j + 1) (f (x j) (y j) c).2 n

theorem carryAfter_succ (f : BitCell) (x y : Nat → Bool) (j : Nat) (c : Bool) (n : Nat) :
    carryAfter f x y j c (n + 1) = (f (x (j + n)) (y (j + n)) (carryAfter f x y j c n)).2 := by
  induction n generalizing j c with
  | zero => rfl
  | succ n ih =>
    rw [carryAfter, ih, show j + 1 + n = j + (n + 1) by omega]
    rfl

/-- The bit a bit-serial function writes at position `j`. -/
def serialBit (f : BitCell) (x y : Nat → Bool) (j : Nat) : Bool :=
  (f (x j) (y j) (carryAfter f x y 0 false j)).1

/-- The loop, over any places of the bits: if no output cell is an input cell of a later position, and the output cells
differ, every position gets the bit its inputs had at the start, and no other cell changes. -/
theorem serialLoop_spec (f : BitCell) (a b out : WordDesc) (ca cb co : Nat → Nat × Nat) (N : Nat)
    (hao : ∀ i k, i < k → k < N → co i ≠ ca k) (hbo : ∀ i k, i < k → k < N → co i ≠ cb k)
    (hoo : ∀ i k, i < k → k < N → co i ≠ co k) :
    ∀ (n j : Nat) (c : Bool) (m : Memory), j + n = N → m.wf = true →
      (∀ k, j ≤ k → k < N → m.wordCell a k = .ok (ca k) ∧ m.wordCell b k = .ok (cb k) ∧
        m.wordCell out k = .ok (co k)) →
      ∃ m', serialLoop f a b out n j c m =
          .done m' (carryAfter f (fun k => m.wordBit a k) (fun k => m.wordBit b k) j c n) ∧
        m'.shape = m.shape ∧
        (∀ i, i < n → m'.cell (co (j + i)).1 (co (j + i)).2 =
          (f (m.wordBit a (j + i)) (m.wordBit b (j + i))
            (carryAfter f (fun k => m.wordBit a k) (fun k => m.wordBit b k) j c i)).1) ∧
        (∀ ring p, (∀ i, i < n → co (j + i) ≠ (ring, p)) → m'.cell ring p = m.cell ring p) := by
  intro n
  induction n with
  | zero =>
    intro j c m _ _ _
    exact ⟨m, rfl, rfl, fun i hi => absurd hi (Nat.not_lt_zero i), fun _ _ _ => rfl⟩
  | succ n ih =>
    intro j c m hN hw hc
    obtain ⟨ha, hb, ho⟩ := hc j le_rfl (by omega)
    have hcell := Memory.hasCell_of_wordCell hw ho
    let bit := (f (m.wordBit a j) (m.wordBit b j) c).1
    let m1 := m.setCell (co j).1 (co j).2 bit
    have hshape : m1.shape = m.shape := m.setCell_shape _ _ _
    have hc1 : ∀ k, j + 1 ≤ k → k < N → m1.wordCell a k = .ok (ca k) ∧ m1.wordCell b k = .ok (cb k) ∧
        m1.wordCell out k = .ok (co k) := by
      intro k hk hkN
      simp only [Memory.wordCell_congr hshape]
      exact hc k (by omega) hkN
    have hread : ∀ k, j < k → k < N → m1.wordBit a k = m.wordBit a k ∧ m1.wordBit b k = m.wordBit b k := by
      intro k hk hkN
      obtain ⟨h1, h2, -⟩ := hc k (by omega) hkN
      obtain ⟨h1', h2', -⟩ := hc1 k (by omega) hkN
      rw [Memory.wordBit_eq_cell h1, Memory.wordBit_eq_cell h2, Memory.wordBit_eq_cell h1',
        Memory.wordBit_eq_cell h2']
      exact ⟨Memory.cell_setCell_ne _ (by simpa using (hao j k hk hkN).symm) _,
        Memory.cell_setCell_ne _ (by simpa using (hbo j k hk hkN).symm) _⟩
    have hcarry : ∀ i, i ≤ n → carryAfter f (fun k => m1.wordBit a k) (fun k => m1.wordBit b k) (j + 1)
          (f (m.wordBit a j) (m.wordBit b j) c).2 i =
        carryAfter f (fun k => m.wordBit a k) (fun k => m.wordBit b k) j c (i + 1) := by
      intro i hi
      induction i with
      | zero => rfl
      | succ i ihi =>
        rw [carryAfter_succ, carryAfter_succ, ihi (by omega)]
        obtain ⟨e1, e2⟩ := hread (j + 1 + i) (by omega) (by omega)
        simp only [e1, e2, show j + (i + 1) = j + 1 + i by omega]
    obtain ⟨m', hrun, hsh, hbits, hframe⟩ :=
      ih (j + 1) (f (m.wordBit a j) (m.wordBit b j) c).2 m1 (by omega) (Memory.wf_of_shape hshape hw) hc1
    refine ⟨m', ?_, hsh.trans hshape, ?_, ?_⟩
    · rw [serialLoop, m.wordGet_eq_cell, ha, m.wordGet_eq_cell, hb]
      simp only [m.wordSet_eq_setCell, ho]
      rw [← Memory.wordBit_eq_cell ha, ← Memory.wordBit_eq_cell hb, hrun, hcarry n le_rfl]
    · intro i hi
      cases i with
      | zero =>
        rw [Nat.add_zero, hframe _ _ ?_, Memory.cell_setCell_self hcell]
        · rfl
        · intro i hi e
          exact hoo j (j + 1 + i) (by omega) (by omega) e.symm
      | succ i =>
        have h := hbits i (by omega)
        obtain ⟨e1, e2⟩ := hread (j + 1 + i) (by omega) (by omega)
        rw [show j + (i + 1) = j + 1 + i by omega, h, e1, e2, hcarry i (by omega)]
    · intro ring p h
      rw [hframe ring p fun i hi => by
        have := h (i + 1) (by omega); rwa [show j + (i + 1) = j + 1 + i by omega] at this]
      exact Memory.cell_setCell_ne _ (by have := h 0 (by omega); rw [Nat.add_zero] at this; exact fun e => this e.symm) _

/-- What a bit-serial function does on Words of one width that the Machine holds, where the output aliases an input
exactly or not at all (R134 to R138, R141). -/
theorem serial_spec (f : BitCell) {a b out : WordDesc} {m : Memory} (hw : m.wf = true)
    (ha : m.holdsWord a = true) (hb : m.holdsWord b = true) (ho : m.holdsWord out = true)
    (hwa : a.width = out.width) (hwb : b.width = out.width)
    (hao : out = a ∨ m.noSharedCell out a) (hbo : out = b ∨ m.noSharedCell out b) :
    ∃ m', serial f a b out m = .done m' (carryAfter f (m.wordBit a) (m.wordBit b) 0 false out.width) ∧
      (∀ j, j < out.width → m'.wordBit out j = serialBit f (m.wordBit a) (m.wordBit b) j) ∧
      m.sameOutside m' out := by
  have cellOf : ∀ w : WordDesc, m.holdsWord w = true → ∃ c : Nat → Nat × Nat,
      ∀ j, j < w.width → m.wordCell w j = .ok (c j) := by
    intro w h
    refine ⟨fun j => match m.wordCell w j with | .ok q => q | .error _ => (0, 0), fun j hj => ?_⟩
    obtain ⟨r, -, e⟩ := Memory.wordCell_ok h hj
    simp only [e]
  obtain ⟨co, hco⟩ := cellOf out ho
  have hinj : ∀ i k, i < k → k < out.width → co i ≠ co k := by
    intro i k hik hk e
    have := Memory.wordCell_inj ho (by omega : i < out.width) hk (by rw [hco i (by omega), hco k hk, e])
    omega
  have inputs : ∀ w : WordDesc, m.holdsWord w = true → w.width = out.width →
      (out = w ∨ m.noSharedCell out w) → ∃ c : Nat → Nat × Nat,
        (∀ j, j < out.width → m.wordCell w j = .ok (c j)) ∧
        ∀ i k, i < k → k < out.width → co i ≠ c k := by
    intro w h hwid hal
    rcases hal with e | hal
    · subst e; exact ⟨co, hco, hinj⟩
    · obtain ⟨c, hc⟩ := cellOf w h
      refine ⟨c, fun j hj => hc j (by omega), fun i k hik hk e => ?_⟩
      exact hal i k (by omega) (by omega) (by rw [hco i (by omega), hc k (by omega), e])
  obtain ⟨ca, hca, hca'⟩ := inputs a ha hwa hao
  obtain ⟨cb, hcb, hcb'⟩ := inputs b hb hwb hbo
  obtain ⟨m', hrun, hsh, hbits, hframe⟩ := serialLoop_spec f a b out ca cb co out.width hca' hcb' hinj
    out.width 0 false m (by omega) hw fun k _ hk => ⟨hca k hk, hcb k hk, hco k hk⟩
  refine ⟨m', ?_, ?_, hsh, ?_⟩
  · rw [serial, if_pos ⟨hwa, hwb⟩]; exact hrun
  · intro j hj
    rw [Memory.wordBit_eq_cell (by rw [Memory.wordCell_congr hsh]; exact hco j hj)]
    have := hbits j hj
    rw [Nat.zero_add] at this
    exact this
  · intro ring p hnb
    refine hframe ring p fun i hi e => hnb ⟨i, hi, ?_⟩
    rw [hco i hi, ← e, Nat.zero_add]

/-- No ALU function fails but by its width check or by a Word outside the rings; on registers it never does. -/
theorem serial_width_error (f : BitCell) {a b out : WordDesc} (m : Memory)
    (h : a.width ≠ out.width ∨ b.width ≠ out.width) : serial f a b out m = .failed .widthMismatch m := by
  rw [serial, if_neg]; rintro ⟨h1, h2⟩; rcases h with h | h <;> contradiction

theorem serialBit_xor (x y : Nat → Bool) (j : Nat) : serialBit xorCell x y j = (x j ^^ y j) := rfl
theorem serialBit_and (x y : Nat → Bool) (j : Nat) : serialBit andCell x y j = (x j && y j) := rfl
theorem serialBit_or (x y : Nat → Bool) (j : Nat) : serialBit orCell x y j = (x j || y j) := rfl
theorem serialBit_copy (x y : Nat → Bool) (j : Nat) : serialBit copyCell x y j = x j := rfl

/-- One full adder, as numbers. -/
theorem addCell_toNat (x y c : Bool) :
    (addCell x y c).1.toNat + 2 * (addCell x y c).2.toNat = x.toNat + y.toNat + c.toNat := by
  cases x <;> cases y <;> cases c <;> rfl

/-- R138 for the first `n` positions: the bits written and the carry out together are the exact sum. -/
theorem natOfBits_addCell (x y : Nat → Bool) (n : Nat) :
    natOfBits (serialBit addCell x y) n + (carryAfter addCell x y 0 false n).toNat * 2 ^ n =
      natOfBits x n + natOfBits y n := by
  induction n with
  | zero => rfl
  | succ n ih =>
    have h := addCell_toNat (x n) (y n) (carryAfter addCell x y 0 false n)
    rw [carryAfter_succ, Nat.zero_add]
    simp only [natOfBits, serialBit, Nat.pow_succ] at ih ⊢
    have h' := congrArg (· * 2 ^ n) h
    simp only [Nat.add_mul] at h'
    linarith

end Sys2Proof.Machine
end

