-- ==== Sys2Proof/Laws/PerInstr.lean ====
section
/-! SUPPORT. Facts about every instruction as syntax, one lemma per constructor: the word the encoder writes has the
instruction's opcode number in `bits[3:0]` and 0 in the reserved field `bits[7:5]` (spec/30_encoding.md R72, R79). -/

namespace Sys2Proof.Laws

open Sys2Proof

/-- The opcode and the reserved field of the encoder's word. -/
def EncodeFields.Statement (i : Instr) : Prop :=
  i.wellFormed = true → field (encode i) 0 4 = i.record.op.number ∧ field (encode i) 5 3 = 0

/-- `imm32` gives a 32-bit field. -/
theorem imm32_lt (v : Int) : imm32 v < 4294967296 := by unfold imm32; omega

/-- The fields of a packed word, each below its width. -/
theorem packWord_fields {op d a b c imm : Nat} (hop : op < 16) (hd : d < 2) (ha : a ≤ 255) (hb : b ≤ 255)
    (hc : c ≤ 255) (hi : imm < 4294967296) :
    field (packWord op d a b c imm) 0 4 = op ∧ field (packWord op d a b c imm) 4 1 = d ∧
      field (packWord op d a b c imm) 5 3 = 0 ∧ field (packWord op d a b c imm) 8 8 = a ∧
      field (packWord op d a b c imm) 16 8 = b ∧ field (packWord op d a b c imm) 24 8 = c ∧
      field (packWord op d a b c imm) 32 32 = imm := by
  simp only [field, packWord, BitVec.toNat_ofNat]
  norm_num
  omega

/-- Only opcode numbers below 16 occur. -/
theorem number_lt (op : Opcode) : op.number < 16 := by cases op <;> decide

/-- A direction is one bit. -/
theorem bit_lt (d : Dir) : d.bit < 2 := by cases d <;> decide

theorem EncodeFields.nop : EncodeFields.Statement .nop := fun _ => by decide

theorem EncodeFields.mov (a b : Nat) : EncodeFields.Statement (.mov a b) := fun h => by
  simp only [Instr.wellFormed, indexFits, Bool.and_eq_true, decide_eq_true_eq] at h
  have := packWord_fields (number_lt .mov) (bit_lt .left) h.1 h.2 (Nat.zero_le 255) (imm32_lt 0)
  exact ⟨this.1, this.2.2.1⟩

/-- The three-register form, for any opcode. -/
theorem three_fields (op : Opcode) {a b c : Nat} (h : (indexFits a && indexFits b && indexFits c) = true) :
    field (packWord op.number Dir.left.bit a b c (imm32 0)) 0 4 = op.number ∧
      field (packWord op.number Dir.left.bit a b c (imm32 0)) 5 3 = 0 := by
  simp only [indexFits, Bool.and_eq_true, decide_eq_true_eq] at h
  have := packWord_fields (number_lt op) (bit_lt .left) h.1.1 h.1.2 h.2 (imm32_lt 0)
  exact ⟨this.1, this.2.2.1⟩

theorem EncodeFields.xor (a b c : Nat) : EncodeFields.Statement (.xor a b c) := fun h => three_fields .xor h
theorem EncodeFields.and (a b c : Nat) : EncodeFields.Statement (.and a b c) := fun h => three_fields .and h
theorem EncodeFields.or (a b c : Nat) : EncodeFields.Statement (.or a b c) := fun h => three_fields .or h
theorem EncodeFields.add (a b c : Nat) : EncodeFields.Statement (.add a b c) := fun h => three_fields .add h

theorem EncodeFields.shiftRing (a : Nat) (dir : Dir) (imm : Int) :
    EncodeFields.Statement (.shiftRing a dir imm) := fun h => by
  simp only [Instr.wellFormed, indexFits, Bool.and_eq_true, decide_eq_true_eq] at h
  have := packWord_fields (number_lt .shiftRing) (bit_lt dir) h.1 (Nat.zero_le 255) (Nat.zero_le 255) (imm32_lt imm)
  exact ⟨this.1, this.2.2.1⟩

theorem EncodeFields.tickAll (imm : Int) : EncodeFields.Statement (.tickAll imm) := fun _ => by
  have := packWord_fields (number_lt .tickAll) (bit_lt .left) (Nat.zero_le 255) (Nat.zero_le 255) (Nat.zero_le 255)
    (imm32_lt imm)
  exact ⟨this.1, this.2.2.1⟩

theorem EncodeFields.halt : EncodeFields.Statement .halt := fun _ => by decide

end Sys2Proof.Laws
end

