-- ==== Sys2Proof/Laws/Step.lean ====
section
/-! SUPPORT. Everything a dispatch, an instruction and a step can do, said once (spec/42_cpu_step.md R150 to R159). -/

namespace Sys2Proof.Machine

/-- The loop changes cell contents alone. -/
theorem serialLoop_shape (f : BitCell) (a b out : WordDesc) (n j : Nat) (c : Bool) (m m' : Memory) (c' : Bool)
    (h : serialLoop f a b out n j c m = .done m' c') : m'.shape = m.shape := by
  induction n generalizing j c m with
  | zero => rw [serialLoop] at h; cases h; rfl
  | succ n ih =>
    rw [serialLoop] at h
    cases hx : m.wordGet a j <;> rw [hx] at h <;> try cases h
    cases hy : m.wordGet b j <;> rw [hy] at h <;> try cases h
    rename_i x y
    cases hs : m.wordSet out j (f x y c).1 <;> simp only [hs] at h <;> try cases h
    refine (ih _ _ _ h).trans ?_
    rw [m.wordSet_eq_setCell] at hs
    cases hq : m.wordCell out j <;> rw [hq] at hs <;> cases hs
    exact m.setCell_shape _ _ _

theorem serial_shape (f : BitCell) (a b out : WordDesc) (m m' : Memory) (c : Bool)
    (h : serial f a b out m = .done m' c) : m'.shape = m.shape := by
  unfold serial at h
  split at h
  · exact serialLoop_shape f a b out _ _ _ m m' c h
  · cases h

/-- A dispatch answers a next state always: the failure taken on the state it began with, or its action's state
retired. -/
theorem State.dispatch_cases (s : State) (ok : Bool) (act : Except FailureKind State) :
    (ok = false ∧ s.dispatch ok act = .next (s.raise .outOfRange)) ∨
    (∃ k, ok = true ∧ act = .error k ∧ s.dispatch ok act = .next (s.raise k)) ∨
    (∃ t, ok = true ∧ act = .ok t ∧ s.dispatch ok act = .next t.retire) := by
  cases ok with
  | false => exact .inl ⟨rfl, rfl⟩
  | true =>
    cases act with
    | error k => exact .inr (.inl ⟨k, rfl, rfl, rfl⟩)
    | ok t => exact .inr (.inr ⟨t, rfl, rfl, rfl⟩)

/-- A dispatch whose operands are in range and whose action succeeds. -/
theorem State.dispatch_ok {s t : State} {ok : Bool} {act : Except FailureKind State} (h : ok = true)
    (ha : act = .ok t) : s.dispatch ok act = .next t.retire := by subst h ha; rfl

/-- A dispatch whose operand check fails. -/
theorem State.dispatch_fail {s : State} {ok : Bool} (act : Except FailureKind State) (h : ok = false) :
    s.dispatch ok act = .next (s.raise .outOfRange) := by subst h; rfl

/-- The action of an instruction: what it does before `retire`, when its operands are in range (R170 to R178). -/
def action (i : Instr) (s : State) : Except FailureKind State :=
  match i with
  | .nop => .ok s
  | .mov a b => s.withAlu (copyWord (s.regWord b) (s.regWord a) s.mem)
  | .xor a b c => s.withAlu (bitwiseXor (s.regWord b) (s.regWord c) (s.regWord a) s.mem)
  | .and a b c => s.withAlu (bitwiseAnd (s.regWord b) (s.regWord c) (s.regWord a) s.mem)
  | .or a b c => s.withAlu (bitwiseOr (s.regWord b) (s.regWord c) (s.regWord a) s.mem)
  | .add a b c => s.withAlu (rippleAdd (s.regWord b) (s.regWord c) (s.regWord a) s.mem)
  | .shiftRing a dir imm =>
    match s.mem.rotate a dir imm with
    | .ok m => .ok (s.setMem m)
    | .error k => .error k
  | .tickAll imm => .ok (s.setMem (s.mem.rotateAll imm))
  | .halt => .ok s.setHalted

/-- Every instruction is a dispatch of its operand check and its action. -/
theorem exec_eq_dispatch (i : Instr) (s : State) : exec i s = s.dispatch (checkOperands i s) (action i s) := by
  cases i <;> rfl

/-- An ALU action changes cell contents alone. -/
theorem State.withAlu_serial {s t : State} {f : BitCell} {a b out : WordDesc}
    (h : s.withAlu (serial f a b out s.mem) = .ok t) : ∃ m, t = s.setMem m ∧ m.shape = s.mem.shape := by
  cases hr : serial f a b out s.mem with
  | done m c => rw [hr] at h; cases h; exact ⟨m, rfl, serial_shape f a b out _ _ _ hr⟩
  | failed k m => rw [hr] at h; cases h

/-- What no action changes: the configuration, the program, `ip`, the fault record, `G` and `NR`, and the canonical
form of the rings. -/
theorem action_keeps {i : Instr} {s t : State} (h : action i s = .ok t) (hw : s.mem.wf = true) :
    t.config = s.config ∧ t.prog = s.prog ∧ t.ip = s.ip ∧ t.fault = s.fault ∧ t.mem.wf = true ∧
      t.mem.gearCount = s.mem.gearCount ∧ t.mem.ringCount = s.mem.ringCount := by
  have alu : ∀ {f : BitCell} {a b out : WordDesc}, s.withAlu (serial f a b out s.mem) = .ok t →
      t.config = s.config ∧ t.prog = s.prog ∧ t.ip = s.ip ∧ t.fault = s.fault ∧ t.mem.wf = true ∧
        t.mem.gearCount = s.mem.gearCount ∧ t.mem.ringCount = s.mem.ringCount := by
    intro f a b out h
    obtain ⟨m, rfl, hm⟩ := State.withAlu_serial h
    exact ⟨rfl, rfl, rfl, rfl, Memory.wf_of_shape hm hw, Memory.shape_gearCount hm, Memory.shape_ringCount hm⟩
  cases i with
  | nop => cases h; exact ⟨rfl, rfl, rfl, rfl, hw, rfl, rfl⟩
  | mov a b => exact alu h
  | xor a b c => exact alu h
  | and a b c => exact alu h
  | or a b c => exact alu h
  | add a b c => exact alu h
  | shiftRing a dir imm =>
    simp only [action] at h
    cases hr : s.mem.rotate a dir imm with
    | error k => rw [hr] at h; cases h
    | ok m =>
      rw [hr] at h; cases h
      refine ⟨rfl, rfl, rfl, rfl, Memory.rotate_keeps_wf hr hw, ?_⟩
      unfold Memory.rotate at hr
      split at hr <;> cases hr
      exact ⟨rfl, by simp [Memory.ringCount, Memory.setRing]⟩
  | tickAll imm =>
    cases h
    exact ⟨rfl, rfl, rfl, rfl, Memory.rotateAll_keeps_wf imm hw, rfl, s.mem.rotateAll_ringCount imm⟩
  | halt => cases h; exact ⟨rfl, rfl, rfl, rfl, hw, rfl, rfl⟩

/-- Everything a step can do. -/
theorem step_cases (s : State) :
    (∃ f, s.fault = some f ∧ step s = .fault (.recorded f.kind f.ip)) ∨
    (s.fault = none ∧ s.halted = true ∧ step s = .next s) ∨
    (s.fault = none ∧ s.halted = false ∧ s.prog[s.ip]? = none ∧ step s = .next s.setHalted) ∨
    (∃ slot e, s.fault = none ∧ s.halted = false ∧ s.prog[s.ip]? = some slot ∧ slot.instr = .error e ∧
      step s = .next (s.glyphPreTick.raise .illegalEncoding)) ∨
    (∃ slot i, s.fault = none ∧ s.halted = false ∧ s.prog[s.ip]? = some slot ∧ slot.instr = .ok i ∧
      step s = exec i s.glyphPreTick) := by
  unfold step
  cases hf : s.fault with
  | some f => exact .inl ⟨f, rfl, rfl⟩
  | none =>
    cases hh : s.halted with
    | true => exact .inr (.inl ⟨rfl, rfl, rfl⟩)
    | false =>
      cases hp : s.prog[s.ip]? with
      | none => exact .inr (.inr (.inl ⟨rfl, rfl, rfl, by simp [State.fetch, hp]⟩))
      | some slot =>
        cases hi : slot.instr with
        | error e => exact .inr (.inr (.inr (.inl ⟨slot, e, rfl, rfl, rfl, hi, by simp [State.fetch, hp, hi]⟩)))
        | ok i => exact .inr (.inr (.inr (.inr ⟨slot, i, rfl, rfl, rfl, hi, by simp [State.fetch, hp, hi]⟩)))

/-- A run goes on from a step's next state. -/
theorem run_next {s t : State} (h : step s = .next t) (k : Nat) : core.run (k + 1) s = core.run k t := by
  have h' : core.step s = .next t := h
  simp only [Host.Core.run, h']

/-- The glyph hook keeps the canonical form, `G` and `NR`. -/
theorem State.glyphPreTick_keeps {s : State} (hw : s.mem.wf = true) :
    s.glyphPreTick.mem.wf = true ∧ s.glyphPreTick.mem.gearCount = s.mem.gearCount ∧
      s.glyphPreTick.mem.ringCount = s.mem.ringCount := by
  obtain h | ⟨-, -, h⟩ := s.glyphPreTick_cases <;> rw [h]
  · exact ⟨hw, rfl, rfl⟩
  · exact ⟨Memory.rotateAll_keeps_wf 1 hw, rfl, s.mem.rotateAll_ringCount 1⟩

/-- `State.reset` is what the host gets by constructing the default configuration with every cell 0 (R240). -/
theorem State.reset_eq_construction :
    constructMachine Limits.default .left (fun _ _ => false) 3 64 =
        .ok (Memory.initial 3 64 .left fun _ _ => false) ∧
      constructCPU Limits.default 0 (Memory.initial 3 64 .left fun _ _ => false) 64 3 false = .ok State.reset := by
  constructor
  · rfl
  · have h : configLegal .w64 3 0 (Memory.initial 3 64 .left fun _ _ => false) = true := by
      simp [configLegal, Memory.initial, Memory.ringCount]
    have h' : (0 : Int) < 3 ∧ configLegal .w64 (3 : Int).toNat 0 (Memory.initial 3 64 .left fun _ _ => false) = true :=
      ⟨by decide, h⟩
    simp only [constructCPU, profileOfWidth, if_true, if_pos h']
    rfl

end Sys2Proof.Machine
end

