-- ==== Sys2Proof/Tests/Slice0.lean ====
section
/-! SUPPORT. Tests. Expected results come from spec/95_test_vectors.md (the row is named in each comment) and from words
written out bit by bit from spec/30_encoding.md; after them, for each statement that has hypotheses, a witness that
meets them. -/

namespace Sys2Proof.Tests

-- One thread for each theorem that waits for the kernel is more than the memory limit allows: check them in order.
set_option Elab.async false

open Sys2Proof Sys2Proof.Machine

/-! ### Helpers -/

/-- Rings of `g` cells whose values at offset 0 are `v`. -/
def ringsOf (g : Nat) (v : List Nat) : Memory :=
  Memory.initial v.length g .left fun r p => (v.getD r 0).testBit p

/-- A core with no program over `m`. -/
def coreOf (p : Profile) (n : Nat) (hook : Bool) (m : Memory) : State :=
  State.initial { profile := p, regCount := n, hook := hook, w64Base := 0, limits := Limits.default } m

/-- The vectors' default configuration with register values `v`. -/
def core64 (v : List Nat) : State := coreOf .w64 v.length false (ringsOf 64 v)

/-- The state with ring `r` turned by the host (44_host_interface.md R201). -/
def turn (s : State) (r : Nat) (d : Dir) (k : Int) : State :=
  match s.mem.rotate r d k with
  | .ok m => s.setMem m
  | .error _ => s

/-- One step on word `w`; none if the step stops. -/
def after (s : State) (w : Nat) : Option State :=
  match step (s.withFetchWord 64 w) with
  | .next t => some t
  | .fault _ => none
  | .refused _ => none

/-- The ring offsets. -/
def offs (s : State) : List Nat := s.mem.rings.map (·.offset)

/-- The recorded directions. -/
def dirs (s : State) : List Dir := s.mem.rings.map (·.dir)

/-- The register values. -/
def vals (s : State) : List Nat := (List.range s.config.regCount).map s.regValue

/-- The numbers of the set bits of register `k`. -/
def bitsOf (s : State) (k : Nat) : List Nat := (List.range (s.regWord k).width).filter (s.regBit k)

/-- The value `out` holds, and the carry, after an ALU function. -/
def aluValue (out : WordDesc) : AluResult → Option (Nat × Bool)
  | .done m c => some (m.wordValue out, c)
  | .failed _ _ => none

/-! ### WellFormed refuses each ill-formed term (R79) -/

theorem test_wf_indices :
    (Instr.mov 256 0).wellFormed = false ∧ (Instr.mov 0 256).wellFormed = false ∧
    (Instr.xor 256 0 0).wellFormed = false ∧ (Instr.xor 0 256 0).wellFormed = false ∧
    (Instr.xor 0 0 256).wellFormed = false ∧ (Instr.and 0 0 256).wellFormed = false ∧
    (Instr.or 0 256 0).wellFormed = false ∧ (Instr.add 256 0 0).wellFormed = false ∧
    (Instr.shiftRing 256 .left 0).wellFormed = false := by decide

theorem test_wf_immediates :
    (Instr.tickAll 2147483648).wellFormed = false ∧ (Instr.tickAll (-2147483649)).wellFormed = false ∧
    (Instr.shiftRing 0 .right 2147483648).wellFormed = false ∧
    (Instr.tickAll (-2147483648)).wellFormed = true ∧ (Instr.tickAll 2147483647).wellFormed = true := by decide

theorem test_wf_records :
    (Record.mk .nop 256 0 0 0 .left).wellFormed = false ∧ (Record.mk .nop 0 256 0 0 .left).wellFormed = false ∧
    (Record.mk .nop 0 0 256 0 .left).wellFormed = false ∧
    (Record.mk .nop 0 0 0 2147483648 .left).wellFormed = false ∧
    (Record.mk .nop 255 255 255 (-2147483648) .right).wellFormed = true := by decide

/-! ### Decoding (R71 to R77; 95_test_vectors.md L2.5, L2.7) -/

theorem test_decode_nop :
    decode 0x0000000000000000 = .ok .nop ∧ decode 0xFFFFFFFFFFFFFF00 = .ok .nop := by decide +kernel

/-- `a` is bits 15 to 8, `b` bits 23 to 16. -/
theorem test_decode_mov :
    decode 0b0000000000000000000000000000000000000000000000100000000100000001#64 = .ok (.mov 1 2) := by
  decide +kernel

/-- `a` 2, `b` 0, `c` 1; the opcodes 2 to 5. -/
theorem test_decode_xor :
    decode 0b0000000000000000000000000000000000000001000000000000001000000010#64 = .ok (.xor 2 0 1) := by
  decide +kernel

theorem test_decode_and :
    decode 0b0000000000000000000000000000000000000001000000000000001000000011#64 = .ok (.and 2 0 1) := by
  decide +kernel

theorem test_decode_or :
    decode 0b0000000000000000000000000000000000000001000000000000001000000100#64 = .ok (.or 2 0 1) := by
  decide +kernel

theorem test_decode_add :
    decode 0b0000000000000000000000000000000000000001000000000000001000000101#64 = .ok (.add 2 0 1) ∧
    decode 0x00000000FFFEFD05 = .ok (.add 253 254 255) := by decide +kernel

/-- Bit 4 set is Right; the immediate is bits 63 to 32. -/
theorem test_decode_shift_ring :
    decode 0b0000000000000000000000000000010100000000000000000000000100010110#64 = .ok (.shiftRing 1 .right 5) ∧
    decode 0xFFFFFFFF00000006 = .ok (.shiftRing 0 .left (-1)) := by decide +kernel

theorem test_decode_tick_all :
    decode 0x8000000000000007 = .ok (.tickAll (-2147483648)) ∧
    decode 0x7FFFFFFF00000007 = .ok (.tickAll 2147483647) ∧ decode 0x0000016500000007 = .ok (.tickAll 357) := by
  decide +kernel

theorem test_decode_halt :
    decode 0x0000000000000008 = .ok .halt ∧ decode 0x0000000000000018 = .ok .halt := by decide +kernel

/-- L2.7 rows 4 to 7, 12, 14. -/
theorem test_decode_illegal :
    decode 0x0000000000000009 = .error (.reservedOpcode 9) ∧ decode 0x000000000000000F = .error (.reservedOpcode 15) ∧
    decode 0x0000000000000020 = .error (.reservedField 1) ∧ decode 0x00000000000000E5 = .error (.reservedField 7) ∧
    decode 0x00000005000001F6 = .error (.reservedField 7) ∧
    decode 0x00000000FF0201FF = .error (.reservedOpcode 15) := by decide +kernel

/-- The words of 95_test_vectors.md's programs. -/
theorem test_encode :
    encode (.add 2 0 1) = 0x0000000001000205 ∧ encode (.shiftRing 1 .right 5) = 0x0000000500000116 ∧
    encode (.tickAll (-3)) = 0xFFFFFFFD00000007 ∧ encode (.mov 1 2) = 0x0000000000020101 ∧
    encode .halt = 0x0000000000000008 := by decide +kernel

/-- R79: a record outside the domain has no word. -/
theorem test_encode_refuses :
    (Record.mk .mov 256 0 0 0 .left).encode = none ∧ (Record.mk .tickAll 0 0 0 2147483648 .left).encode = none := by
  decide +kernel

/-- R80's example lines. -/
theorem test_assembler :
    readLine "ADD R2, R0, R1".toList = some (.add 2 0 1) ∧
    readLine "SHIFT_RING 1, R, 5".toList = some (.shiftRing 1 .right 5) ∧
    readLine "TICK_ALL -3".toList = some (.tickAll (-3)) ∧ readLine "MOV 2, R0".toList = none ∧
    assembleLine "MOV R256, R0".toList = none ∧
    assembleLine "ADD R2, R0, R1".toList = some 0x0000000001000205 := by decide +kernel

/-! ### Rings and the Machine (95_test_vectors.md L1.1 to L1.3, L2.1) -/

/-- A ring of no cells, for the vectors about offsets. -/
def emptyRing (o : Nat) : Ring := ⟨o, .left, []⟩

/-- L2.1 rows 1 to 10. -/
theorem test_ring_rotate :
    (emptyRing 10).rotate 360 .right 15 = ⟨355, .right, []⟩ ∧ (emptyRing 10).rotate 360 .left (-1) = emptyRing 9 ∧
    (emptyRing 0).rotate 360 .left 725 = emptyRing 5 ∧ (emptyRing 5).rotate 360 .right 360 = ⟨5, .right, []⟩ ∧
    (emptyRing 359).rotate 360 .left 1 = emptyRing 0 ∧ (emptyRing 0).rotate 360 .right 1 = ⟨359, .right, []⟩ ∧
    (emptyRing 0).rotate 360 .right (-2147483648) = ⟨128, .right, []⟩ ∧
    (emptyRing 0).rotate 360 .left 2147483647 = emptyRing 127 ∧ (emptyRing 100).rotate 360 .right (-100) = ⟨200, .right, []⟩ ∧
    (emptyRing 7).rotate 360 .right 0 = ⟨7, .right, []⟩ := by decide +kernel

/-- L1.3, L2.1 rows 11, 12. -/
theorem test_logical_to_physical :
    (List.range 8).map (fun i => (emptyRing 3).logicalToPhysical 8 (i : Nat)) =
      [3, 4, 5, 6, 7, 0, 1, 2].map (fun p => Except.ok p) ∧
    (emptyRing 3).logicalToPhysical 8 8 = .error .outOfRange ∧ (emptyRing 355).logicalToPhysical 360 10 = .ok 5 ∧
    (emptyRing 0).logicalToPhysical 360 (-1) = .error .outOfRange := by decide +kernel

/-- L2.1 row 13's ring. -/
def row13 : Ring := ⟨1, .left, [true, false, false, false, false, false, false, true]⟩

/-- L2.1 rows 13 to 15. -/
theorem test_ring_bits :
    (List.range 8).map (fun i => row13.getBit 8 (i : Nat)) =
      [false, false, false, false, false, false, true, true].map (fun b => Except.ok b) ∧
    row13.setBit 8 7 6 = .ok (row13.setCell 0 false) ∧ row13.setBit 8 6 (-1) = .ok (row13.setCell 7 true) ∧
    row13.flipBit 8 7 = .ok (row13.setCell 0 false) := by decide +kernel

/-- L2.1 rows 16 to 19. -/
theorem test_machine_rotate :
    (Memory.mk 64 [emptyRing 0, emptyRing 0]).rotate 2 .left 1 = .error .outOfRange ∧
    (Memory.mk 64 [emptyRing 0, emptyRing 0]).getBit (-1) 0 = .error .outOfRange ∧
    (Memory.mk 64 [emptyRing 5, ⟨5, .right, []⟩]).rotateAll 1 = ⟨64, [emptyRing 6, ⟨4, .right, []⟩]⟩ ∧
    (Memory.mk 64 [emptyRing 0, ⟨0, .right, []⟩, ⟨54, .right, []⟩]).rotateAll 3 =
      ⟨64, [emptyRing 3, ⟨61, .right, []⟩, ⟨51, .right, []⟩]⟩ ∧
    (Memory.mk 64 [emptyRing 0]).rotateAll (-1) = ⟨64, [emptyRing 63]⟩ := by decide +kernel

/-- L2.2. -/
theorem test_glyph :
    [0, 27, 28, 332, 333, 359].map (glyph · 360) = [0, 0, 1, 11, 12, 12] ∧
    [0, 4, 5, 59, 60, 63].map (glyph · 64) = [0, 0, 1, 11, 12, 12] ∧
    (List.range 13).map (glyph · 13) = List.range 13 ∧
    (List.range 7).map (glyph · 7) = [0, 1, 3, 5, 7, 9, 11] ∧
    [24, 25].map (glyph · 26) = [12, 12] ∧ glyph 0 1 = 0 ∧ glyph 1 2 = 6 := by decide +kernel

/-! ### Words and the ALU (95_test_vectors.md L2.3, L2.4) -/

theorem test_resolve_bit :
    (WordDesc.w64 2 0).resolveBit 63 = .ok (2, 63) ∧ (WordDesc.w64 2 0).resolveBit 64 = .error .outOfRange ∧
    (WordDesc.w64 0 6).resolveBit 63 = .ok (0, 69) ∧ (WordDesc.w360 1).resolveBit 359 = .ok (1, 359) ∧
    (WordDesc.w360 1).resolveBit 360 = .error .outOfRange ∧
    (WordDesc.w720 4 5).resolveBit 359 = .ok (4, 359) ∧ (WordDesc.w720 4 5).resolveBit 360 = .ok (5, 0) ∧
    (WordDesc.w720 4 5).resolveBit 719 = .ok (5, 359) ∧
    (WordDesc.w720 4 5).resolveBit 720 = .error .outOfRange := by decide +kernel

/-- L2.3 row 5. -/
theorem test_width_mismatch :
    bitwiseXor (.w64 0 0) (.w64 1 0) (.w360 2) (ringsOf 64 [1, 2, 3]) =
      .failed .widthMismatch (ringsOf 64 [1, 2, 3]) := by decide +kernel

/-- L1.5, L2.4 rows 1 to 3. -/
theorem test_bitwise :
    aluValue (.w64 2 0) (bitwiseXor (.w64 0 0) (.w64 1 0) (.w64 2 0) (ringsOf 64 [0xF0F0, 0x0FF0, 0])) =
      some (0xFF00, false) ∧
    aluValue (.w64 2 0) (bitwiseAnd (.w64 0 0) (.w64 1 0) (.w64 2 0) (ringsOf 64 [0xF0F0, 0x0FF0, 0])) =
      some (0x00F0, false) ∧
    aluValue (.w64 2 0) (bitwiseOr (.w64 0 0) (.w64 1 0) (.w64 2 0) (ringsOf 64 [0xF0F0, 0x0FF0, 0])) =
      some (0xFFF0, false) := by decide +kernel

/-- L1.4, L2.4 row 9. -/
theorem test_ripple_add_max :
    aluValue (.w64 2 0)
        (rippleAdd (.w64 0 0) (.w64 1 0) (.w64 2 0) (ringsOf 64 [0xFFFFFFFFFFFFFFFF, 0xFFFFFFFFFFFFFFFF, 0])) =
      some (0xFFFFFFFFFFFFFFFE, true) := by decide +kernel

/-- L2.4 row 10: both inputs are the output. -/
theorem test_ripple_add_alias :
    aluValue (.w64 0 0) (rippleAdd (.w64 0 0) (.w64 0 0) (.w64 0 0) (ringsOf 64 [0x8000000000000001])) =
      some (2, true) := by decide +kernel

/-- R137: the carry out of bit 359 enters bit 360, the first cell of the second ring (four bit positions of the loop). -/
theorem test_ripple_carry_crosses :
    (match serialLoop addCell (.w720 0 1) (.w720 0 1) (.w720 0 1) 4 358 false (ringsOf 360 [2 ^ 359, 0]) with
      | .done m c => (m.cell 0 359, m.cell 1 0, m.cell 1 1, c)
      | .failed _ _ => (true, true, true, true)) = (false, true, false, false) := by decide +kernel

/-- L2.3, windowed W64: `G = 70`, `x[0] = 1 << 63`, logical index 64 set. -/
theorem test_windowed_w64 :
    let s := coreOf .w64 1 false (ringsOf 70 [2 ^ 63 + 2 ^ 64])
    (s.regValue 0, (turn s 0 .left 1).regValue 0, (turn s 0 .left 2).regValue 0) =
      (0x8000000000000000, 0xC000000000000000, 0x6000000000000000) := by decide +kernel

/-- L2.3, W720 halves: bits 0, 359 and 360 set, then one Left tick. -/
theorem test_w720_halves :
    let s := coreOf .w720 1 false (ringsOf 360 [2 ^ 359 + 1, 1])
    ([358, 359, 719].map ((s.setMem (s.mem.rotateAll 1)).regBit 0),
      [0, 357, 360, 718].map ((s.setMem (s.mem.rotateAll 1)).regBit 0)) =
      ([true, true, true], [false, false, false, false]) := by decide +kernel

/-! ### One step of each instruction (95_test_vectors.md L2.5; the word is the row's) -/

/-- Row 1. -/
theorem test_step_nop :
    (after (core64 [0xF0F0, 0x0FF0, 0]) 0).map (fun t => (t.ip, offs t, vals t)) =
      some (1, [1, 1, 1], [0x7878, 0x7F8, 0]) := by decide +kernel

/-- Row 2. -/
theorem test_step_mov :
    (after (core64 [0xF0F0, 0x0FF0, 0]) 0x0000000000000101).map (fun t => (t.ip, vals t)) =
      some (1, [0x7878, 0x7878, 0]) := by decide +kernel

/-- Row 3. -/
theorem test_step_mov_self :
    (after (core64 [0xF0F0, 0x0FF0, 0]) 0x0000000000000001).map vals = some [0x7878, 0x7F8, 0] := by decide +kernel

/-- Row 4. -/
theorem test_step_xor :
    (after (core64 [0xF0F0, 0x0FF0, 0]) 0x0000000001000202).map vals = some [0x7878, 0x7F8, 0x7F80] := by
  decide +kernel

/-- Row 7. -/
theorem test_step_xor_clears :
    (after (core64 [0xF0F0, 0x0FF0, 0]) 0x0000000000000002).map vals = some [0, 0x7F8, 0] := by decide +kernel

/-- Row 5. -/
theorem test_step_and :
    (after (core64 [0xF0F0, 0x0FF0, 0]) 0x0000000001000203).map vals = some [0x7878, 0x7F8, 0x78] := by decide +kernel

/-- Row 6. -/
theorem test_step_or :
    (after (core64 [0xF0F0, 0x0FF0, 0]) 0x0000000001000204).map vals = some [0x7878, 0x7F8, 0x7FF8] := by
  decide +kernel

/-- Row 10: the carry ripples through 32 bits. -/
theorem test_step_add :
    (after (core64 [0xFFFFFFFF, 1, 0]) 0x0000000001000205).map vals =
      some [0x800000007FFFFFFF, 0x8000000000000000, 0x80000000] := by decide +kernel

/-- Row 13: both sources are the destination, and the carry out is dropped. -/
theorem test_step_add_self :
    (after (core64 [0x8000000000000001, 0, 0]) 0x0000000000000005).map vals = some [1, 0, 0] := by decide +kernel

/-- Row 14. -/
theorem test_step_shift_ring :
    (after State.reset 0x0000000500000116).map (fun t => (t.ip, offs t, dirs t)) =
      some (1, [1, 58, 1], [.left, .right, .left]) := by decide +kernel

/-- Row 15. -/
theorem test_step_shift_ring_back :
    (after State.reset 0xFFFFFFFF00000006).map (fun t => (offs t, dirs t)) =
      some ([0, 1, 1], [.left, .left, .left]) := by decide +kernel

/-- Row 19. -/
theorem test_step_tick_all :
    (after State.reset 0xFFFFFFFD00000007).map (fun t => (t.ip, offs t)) = some (1, [62, 62, 62]) := by decide +kernel

/-- Row 22. -/
theorem test_step_tick_all_directions :
    (after (turn (turn State.reset 1 .right 0) 2 .right 10) 0x0000000300000007).map (fun t => (offs t, dirs t)) =
      some ([4, 60, 50], [.left, .right, .right]) := by decide +kernel

/-- Row 23, L1.9. -/
theorem test_step_halt :
    (after State.reset 0x0000000000000008).map (fun t => (t.ip, t.halted, offs t, t.fault)) =
      some (1, true, [1, 1, 1], none) := by decide +kernel

/-- Rows 24 to 26: fault `(1, 0)`, nothing else changed. -/
theorem test_step_out_of_range :
    [0x0000000000000301, 0x0000000007010002, 0x0000000100000306].map (fun w => after (core64 [0xF0F0, 0x0FF0, 0]) w) =
      [0x0000000000000301, 0x0000000007010002, 0x0000000100000306].map (fun w =>
        some { (core64 [0xF0F0, 0x0FF0, 0]).withFetchWord 64 w with fault := some ⟨.outOfRange, 0⟩ }) := by
  decide +kernel

/-- The codes of the failure kinds (60_exceptions.md R210). -/
theorem test_fault_codes :
    [FailureKind.outOfRange, .invalidConfiguration, .widthMismatch, .illegalEncoding].map FailureKind.code =
      [1, 2, 3, 4] := by decide

/-- Program P10: an illegal word. -/
theorem test_step_illegal :
    (after State.reset 0x0000000000000009).map (fun t => (t.ip, offs t, t.fault)) =
      some (0, [0, 0, 0], some ⟨.illegalEncoding, 0⟩) := by decide +kernel

/-! ### The step (95_test_vectors.md L2.6) -/

/-- A core with the hook on and ring 0 at offset `o`. -/
def hooked (o : Int) : State := turn (coreOf .w64 3 true (ringsOf 64 [5, 3, 0])) 0 .left o

/-- Rows 5, 6. -/
theorem test_hook :
    (after (hooked 59) 0).map offs = some [60, 1, 1] ∧ (after (hooked 60) 0).map offs = some [62, 2, 2] := by
  decide +kernel

/-- Row 7. -/
theorem test_hook_off :
    (after (turn State.reset 0 .left 60) 0).map offs = some [61, 1, 1] := by decide +kernel

/-- Row 8 (word of `ADD R5, R0, R1`): the pre-tick is kept, then the fault; no end tick. -/
theorem test_hook_then_fault :
    (after (hooked 60) 0x0000000001000505).map (fun t => (offs t, t.ip, t.fault)) =
      some ([61, 1, 1], 0, some ⟨.outOfRange, 0⟩) := by decide +kernel

/-- Rows 9, 10: the fault is sticky and survives `loadProgram`. -/
theorem test_fault_sticky :
    ((after (hooked 60) 0x0000000001000505).map hostStep).map (fun p => p.2) = some (some ⟨.outOfRange, 0⟩) ∧
    (((after (hooked 60) 0x0000000001000505).bind (·.loadProgram [.word 0])).map hostStep).map
      (fun p => (p.2, p.1.ip, p.1.halted, offs p.1)) =
      some (some ⟨.outOfRange, 0⟩, 0, false, [61, 1, 1]) := by decide +kernel

/-- Rows 1 to 3. -/
theorem test_end_of_program :
    hostStep State.reset = ({ State.reset with halted := true }, none) ∧
    hostStep (hooked 60) = ({ hooked 60 with halted := true }, none) ∧
    hostStep { hooked 60 with halted := true } = ({ hooked 60 with halted := true }, none) := by decide +kernel

/-! ### The host (95_test_vectors.md L2.8) -/

/-- Rows 1 to 6. -/
theorem test_construction_refused :
    (constructMachine Limits.default .left (fun _ _ => false) 0 360).toOption = none ∧
    (constructMachine Limits.default .left (fun _ _ => false) 3 (-1)).toOption = none ∧
    (constructCPU Limits.default 0 (ringsOf 360 [0, 0, 0, 0, 0]) 720 3 false).toOption = none ∧
    (constructCPU Limits.default 0 (ringsOf 64 [0]) 360 1 false).toOption = none ∧
    (constructCPU Limits.default 0 (ringsOf 64 [0]) 128 1 false).toOption = none ∧
    (constructCPU Limits.default 0 (ringsOf 64 [0, 0, 0]) 64 4 false).toOption = none ∧
    (constructCPU Limits.default 0 (ringsOf 64 [0, 0, 0]) 64 0 true).toOption = none := by decide +kernel

/-- Row 7. -/
theorem test_construction :
    constructCPU Limits.default 0 (ringsOf 64 [0, 0, 0]) 64 3 false = .ok State.reset := by decide +kernel

/-- Rows 9 to 12. -/
theorem test_inspection :
    (core64 [5, 0, 0]).registerBitList 0 = .ok ([true, false, true, false] ++ List.replicate 60 false) ∧
    (core64 [5, 0, 0]).registerBits 3 = .error .outOfRange ∧
    State.reset.mem.ringBits 0 0 = .ok "" ∧ State.reset.mem.ringBits 0 65 = .error .outOfRange ∧
    (turn (coreOf .w360 1 false (ringsOf 360 [0])) 0 .left 333).mem.activeGlyph 0 = .ok 12 ∧
    State.reset.mem.activeGlyph 3 = .error .outOfRange := by decide +kernel

/-- The dumps as text: L2.1 row 13, and the first characters of row 9. -/
theorem test_dump_text :
    (Memory.mk 8 [row13]).ringBits 0 8 = .ok "00000011" ∧
    (Memory.mk 8 [row13]).ringBits 0 9 = .error .outOfRange ∧
    (Memory.mk 8 [row13]).ringBits 1 8 = .error .outOfRange ∧
    (((core64 [5, 0, 0]).registerBits 0).toOption.map fun t => t.toList.take 5) = some ['1', '0', '1', '0', '0'] := by
  decide +kernel

/-- Row 8. -/
theorem test_capacity :
    capacity 2 3 2 = .ok 4096 ∧ capacity 1 64 1 = .ok 18446744073709551616 ∧
    capacity 1 64 3 = .error .invalidConfiguration := by decide +kernel

/-- What the host asks of the fixed names: a table word decodes, and it is the first instruction run after reset. -/
theorem test_table_word :
    decodeTableWord 64 0x0000000A00000007 = some (.tickAll 10) ∧ decodeTableWord 64 9 = none ∧
    (after State.reset 0x0000000A00000007).map offs = some [11, 11, 11] := by decide +kernel

/-! ### Witnesses: for each statement of Certificates/Slice0/Obligations.lean that has hypotheses, operands and a state that
meet all of them, with one for each clause at its boundary. -/

/-- The rings of reset with bits of value 5 in ring 0, 3 in ring 1. -/
def core53 : State := core64 [5, 3, 0]

/-- A well-formed core of each profile: a windowed W64 one (`G = 70`), a W360 one and a W720 one. -/
def windowed : State := coreOf .w64 1 false (ringsOf 70 [2 ^ 63])
def core360 : State := coreOf .w360 2 false (ringsOf 360 [1, 0])
def core720 : State := coreOf .w720 2 false (ringsOf 360 [1, 0, 0, 0])

/-- `s` with the program word `w` at its instruction pointer, running. -/
def running (s : State) (w : Nat) : State := s.withFetchWord 64 w

theorem test_wf_cores :
    State.reset.wf = true ∧ core53.wf = true ∧ windowed.wf = true ∧ core360.wf = true ∧ core720.wf = true ∧
    (hooked 60).wf = true := by decide +kernel

theorem test_witness_DecodeEncodeRoundTrip :
    (Instr.mov 255 0).wellFormed = true ∧ (Instr.add 255 255 255).wellFormed = true ∧
    (Instr.shiftRing 255 .right (-2147483648)).wellFormed = true ∧ (Instr.tickAll 2147483647).wellFormed = true := by
  decide

theorem test_witness_RecordEncodesWhenItFits :
    (Record.mk .add 255 255 255 (-2147483648) .right).encode = some 0x00000000FFFFFF05 ∧
    (Record.mk .add 255 256 255 0 .right).encode = none := by decide +kernel

/-- The two illegal fields, at their boundaries (opcode 9, reserved field 1). -/
theorem test_witness_IllegalWordsFault :
    (9 ≤ (0x9 : InstrWord).toNat % 16 ∧ (0x20 : InstrWord).toNat / 32 % 8 ≠ 0) ∧
    (running State.reset 9).fault = none ∧ (running State.reset 9).halted = false ∧
    (running State.reset 9).prog[(running State.reset 9).ip]? = some (.word 9) ∧
    1 ≤ (running State.reset 9).config.limits.maxProgramLen := by decide +kernel

theorem test_witness_DecodeReadsTheFields :
    decode 0xFFFFFFFFFFFFFF16 = .ok (.shiftRing 255 .right (-1)) ∧ decode 0xFFFFFFFFFFFFFF18 = .ok .halt := by
  decide +kernel

/-- Words that agree on the read fields and differ in an ignored one: NOP in `a`, MOV in `c`, ADD in the immediate,
SHIFT_RING in `b`, TICK_ALL in `d`. -/
theorem test_witness_UnusedFieldsAreIgnored :
    (field 0x0000 0 4 = field 0xFF00 0 4 ∧ field 0x0000 5 3 = field 0xFF00 5 3) ∧
    (opcodeOfNumber (field 0xFF010201 0 4) = some .mov ∧ field 0x010201 8 8 = field 0xFF010201 8 8 ∧
      field 0x010201 16 8 = field 0xFF010201 16 8) ∧
    (field 0x03010205 8 8 = field 0xFFFFFFFF03010205 8 8 ∧ field 0x03010205 16 8 = field 0xFFFFFFFF03010205 16 8 ∧
      field 0x03010205 24 8 = field 0xFFFFFFFF03010205 24 8) ∧
    (field 0x500000116 8 8 = field 0x500FF0116 8 8 ∧ field 0x500000116 4 1 = field 0x500FF0116 4 1 ∧
      field 0x500000116 32 32 = field 0x500FF0116 32 32) ∧
    field 0x500000007 32 32 = field 0x500000017 32 32 := by decide +kernel

/-- A positive `G`, a negative count that is a multiple of `G` and one that is not. -/
theorem test_witness_StepsNormalize : 0 < 360 ∧ 360 % 360 = 0 ∧ 1 % 360 ≠ 0 ∧
    normalizeSteps 360 (-360) = 0 ∧ normalizeSteps 360 (-1) = 359 := by decide +kernel

/-- The least ring, and a ring at its last offset; also for SubstrateLaws. -/
theorem test_witness_RingRotates : (0 < 1 ∧ (emptyRing 0).offset < 1) ∧ 0 < 360 ∧ (emptyRing 359).offset < 360 ∧
    ((360 : Nat) : Int) ∣ -720 := by decide

theorem test_witness_SubstrateLaws : 0 < 8 ∧ (emptyRing 7).offset < 8 ∧
    (emptyRing 7).logicalToPhysical 8 1 = .ok 0 := by decide +kernel

theorem test_witness_RotationMovesTheView : row13.offset < 8 ∧ 7 < 8 := by decide

/-- A ring of the Machine, and ring indices just outside it. -/
theorem test_witness_MachineRotatesOneRing :
    core53.mem.wf = true ∧ (core53.mem.rings[2]?).isSome = true ∧ (-1 : Int) < 0 ∧
    (core53.mem.ringCount : Int) ≤ 3 := by decide +kernel

theorem test_witness_GlobalTickTurnsEveryRing : core53.mem.wf = true := by decide +kernel

theorem test_witness_AccessOutsideTheRingsFails :
    core53.mem.wf = true ∧ (core53.mem.ringCount : Int) ≤ 3 ∧ (core53.mem.gearCount : Int) ≤ 64 := by decide +kernel

/-- The last cell of the last ring, another cell, and the first ring and the first index outside. -/
theorem test_witness_WrittenBitReadsBack :
    core53.mem.wf = true ∧ (2 : Int) < core53.mem.ringCount ∧ (63 : Int) < core53.mem.gearCount ∧
    core53.mem.locate 1 63 ≠ core53.mem.locate 2 63 ∧ ¬ ((3 : Int) < core53.mem.ringCount) ∧
    ¬ ((64 : Int) < core53.mem.gearCount) := by decide +kernel

theorem test_witness_FlipBitComplements :
    row13.cells.length = 8 ∧ row13.offset < 8 ∧ (0 : Int) ≤ 7 ∧ (7 : Int) < 8 ∧ ((8 : Nat) : Int) ≤ 8 := by decide

theorem test_witness_GlyphOffsetRanges : 332 < 360 ∧ glyph 332 360 = 11 ∧ 333 < 360 ∧ glyph 333 360 = 12 := by
  decide +kernel

theorem test_witness_RegistersAreDisjointWords :
    core720.wf = true ∧ 0 < core720.config.regCount ∧ 1 < core720.config.regCount ∧ (0 : Nat) ≠ 1 := by
  decide +kernel

/-- Words of different widths, for the three-operand functions and for the copy. -/
theorem test_witness_WidthMismatchIsChecked :
    (WordDesc.w64 0 0).width ≠ (WordDesc.w360 0).width ∧ (WordDesc.w360 0).width ≠ (WordDesc.w720 0 1).width := by
  decide

/-- Three registers that share no cell. -/
theorem test_witness_BitwiseFunctionsWriteEveryBit :
    core53.mem.wf = true ∧ core53.mem.holdsWord (core53.regWord 0) = true ∧
    core53.mem.holdsWord (core53.regWord 1) = true ∧ core53.mem.holdsWord (core53.regWord 2) = true ∧
    (core53.regWord 0).width = (core53.regWord 2).width ∧ (core53.regWord 1).width = (core53.regWord 2).width ∧
    core53.mem.noSharedCell (core53.regWord 2) (core53.regWord 0) ∧
    core53.mem.noSharedCell (core53.regWord 2) (core53.regWord 1) :=
  ⟨by decide +kernel, by decide +kernel, by decide +kernel, by decide +kernel, rfl, rfl,
    State.noSharedCell_regs test_wf_cores.2.1 (by decide) (by decide) (by decide),
    State.noSharedCell_regs test_wf_cores.2.1 (by decide) (by decide) (by decide)⟩

/-- Both inputs the output, a W720 register. -/
theorem test_witness_RippleAddIsAddition :
    core720.mem.wf = true ∧ core720.mem.holdsWord (core720.regWord 1) = true ∧
    (core720.regWord 1).width = (core720.regWord 1).width ∧
    (core720.regWord 1 = core720.regWord 1 ∨
      core720.mem.noSharedCell (core720.regWord 1) (core720.regWord 1)) :=
  ⟨by decide +kernel, by decide +kernel, rfl, .inl rfl⟩

theorem test_witness_NopOnlyTicks : core53.wf = true := test_wf_cores.2.1

/-- The last register of the bank as source and destination. -/
theorem test_witness_MovCopiesARegister :
    core53.wf = true ∧ 2 < core53.config.regCount ∧ 0 < core53.config.regCount ∧ 2 = 2 := by decide +kernel

/-- Registers of the bank, `b = c` among them; also for AND, OR and ADD. -/
theorem test_witness_XorWritesItsRegister :
    core53.wf = true ∧ 2 < core53.config.regCount ∧ 0 < core53.config.regCount ∧ 1 < core53.config.regCount := by
  decide +kernel

theorem test_witness_AndWritesItsRegister :
    core360.wf = true ∧ 1 < core360.config.regCount ∧ 0 < core360.config.regCount := by decide +kernel

theorem test_witness_OrWritesItsRegister :
    core720.wf = true ∧ 1 < core720.config.regCount ∧ 0 < core720.config.regCount := by decide +kernel

theorem test_witness_AddWritesTheSum :
    windowed.wf = true ∧ 0 < windowed.config.regCount := by decide +kernel

/-- The last ring, and another one. -/
theorem test_witness_ShiftRingTurnsItsRing :
    core53.wf = true ∧ (core53.mem.rings[2]?).isSome = true ∧ (0 : Nat) ≠ 2 ∧
    (core53.mem.rings[0]?).isSome = true := by decide +kernel

theorem test_witness_TickAllTurnsEveryRing :
    core53.wf = true ∧ (core53.mem.gearCount : Int) ∣ 63 + 1 ∧ (core53.mem.gearCount : Int) ∣ -1 + 1 := by
  decide +kernel

theorem test_witness_HaltSetsHaltedAndTicks : (hooked 60).wf = true := test_wf_cores.2.2.2.2.2

/-- The least index out of each bound. -/
theorem test_witness_IndexOutOfBoundFaults :
    (¬ (3 < core53.config.regCount ∧ 0 < core53.config.regCount)) ∧
    (¬ (0 < core53.config.regCount ∧ 0 < core53.config.regCount ∧ 3 < core53.config.regCount)) ∧
    ¬ 3 < core53.mem.ringCount := by decide +kernel

/-- An instruction held as a word, and one held as a record. -/
theorem test_witness_StepRunsTheInstruction :
    (running core53 0x101).runs (.mov 1 0) ∧
    { core53 with prog := [.record ⟨.mov, 1, 0, 300, 0, .right⟩] }.runs (.mov 1 0) :=
  ⟨⟨rfl, rfl, .word 0x101, by decide +kernel, by decide +kernel⟩, ⟨rfl, rfl, _, rfl, rfl⟩⟩

theorem test_witness_RecordedFaultIsSticky :
    (core53.raise .outOfRange).fault = some ⟨.outOfRange, 0⟩ := rfl

theorem test_witness_HaltedStepDoesNothing : core53.setHalted.fault = none ∧ core53.setHalted.halted = true :=
  ⟨rfl, rfl⟩

/-- `ip = len`. -/
theorem test_witness_EndOfProgramHalts :
    core53.fault = none ∧ core53.halted = false ∧ core53.prog.length ≤ core53.ip := by decide +kernel

/-- Ring 0 at the first offset of glyph 12, and one before it. -/
theorem test_witness_GlyphHookAddsOneTick :
    ((hooked 60).wf = true ∧ ((hooked 60).mem.rings[0]?).map (·.offset) = some 60 ∧
      (hooked 60).config.hook = true ∧ glyph 60 (hooked 60).mem.gearCount = 12) ∧
    ((hooked 59).wf = true ∧ ((hooked 59).mem.rings[0]?).map (·.offset) = some 59 ∧
      ¬ ((hooked 59).config.hook = true ∧ glyph 59 (hooked 59).mem.gearCount = 12)) := by decide +kernel

/-- An index out of range, and an illegal word, each with the hook's tick before it. -/
theorem test_witness_FailingStepRecordsItsFault :
    ((running (hooked 60) 0x0000000001000505).wf = true ∧ (running (hooked 60) 9).wf = true) ∧
    ((running (hooked 60) 9).fault = none) ∧
    (after (hooked 60) 0x0000000001000505).map (·.fault) = some (some ⟨.outOfRange, 0⟩) ∧
    (after (hooked 60) 9).map (·.fault) = some (some ⟨.illegalEncoding, 0⟩) := by decide +kernel

/-- HALT dispatched without a fault; and the other clause: a fault, an empty program. -/
theorem test_witness_IpAdvancesByOne :
    ((running core53 8).wf = true ∧ (running core53 8).runs .halt ∧
      (after core53 8).map (·.fault) = some none) ∧
    (after core53 9).map (·.fault) = some (some ⟨.illegalEncoding, 0⟩) ∧
    hostStep core53 = (core53.setHalted, none) :=
  ⟨⟨by decide +kernel, ⟨rfl, rfl, .word 8, by decide +kernel, by decide +kernel⟩, by decide +kernel⟩,
    by decide +kernel, by decide +kernel⟩

/-- HALT, the end of a program, a halted core, and a program that loads. -/
theorem test_witness_OnlyHaltAndProgramEndHalt :
    (after core53 8).map (·.halted) = some true ∧ (hostStep core53).1.halted = true ∧
    step core53.setHalted = .next core53.setHalted ∧ (core53.setHalted.loadProgram [.word 0]).isSome = true :=
  ⟨by decide +kernel, by decide +kernel, rfl, by decide +kernel⟩

theorem test_witness_StepKeepsProgramAndConfig : (after core53 0x101).isSome = true := by decide +kernel

/-- SHIFT_RING 1, R, 0 changes ring 1's direction. -/
theorem test_witness_OnlyShiftRingChangesADirection :
    (running core53 0x116).wf = true ∧ ((running core53 0x116).mem.rings[1]?).map (·.dir) = some .left ∧
    (after core53 0x116).bind (fun t => (t.mem.rings[1]?).map (·.dir)) = some .right := by decide +kernel

/-- MOV R2, R0 changes cell 0 of ring 2. -/
theorem test_witness_OnlyDestinationCellsChange :
    (running core53 0x201).wf = true ∧ (running core53 0x201).mem.cell 2 0 = false ∧
    (after core53 0x201).map (fun t => t.mem.cell 2 0) = some true := by decide +kernel

/-- TICK_ALL 10 with the hook's tick before it. -/
theorem test_witness_TickAccounting :
    ((running (hooked 60) 0x0000000A00000007).wf = true ∧
      (running (hooked 60) 0x0000000A00000007).runs (.tickAll 10)) ∧
    (∀ a dir imm, Instr.tickAll 10 ≠ .shiftRing a dir imm) ∧
    (after (hooked 60) 0x0000000A00000007).map (fun t => (t.fault, offs t)) = some (none, [8, 12, 12]) ∧
    ((running (hooked 60) 0x0000000A00000007).mem.rings[0]?).isSome = true :=
  ⟨⟨by decide +kernel, ⟨rfl, rfl, .word 0x0000000A00000007, by decide +kernel, by decide +kernel⟩⟩,
    by simp, by decide +kernel, by decide +kernel⟩

theorem test_witness_StepKeepsWellFormed :
    (running core53 0x201).wf = true ∧ (after core53 0x201).isSome = true := by decide +kernel

/-- A program of an illegal word, and one of HALT. -/
theorem test_witness_EveryRunEnds :
    (running core53 9).wf = true ∧ (running core53 9).fault = none ∧ (running core53 8).wf = true ∧
    (running core53 8).fault = none := by decide +kernel

/-- The boot of 70_reset_and_hazards.md R242 with the default configuration. -/
theorem test_witness_ConstructionLeavesResetValues :
    constructMachine Limits.default .left (fun _ _ => false) 3 64 = .ok State.reset.mem ∧
    constructCPU Limits.default 0 State.reset.mem 64 3 false = .ok State.reset := by decide +kernel

/-- Each width's clause at its boundary: the least rings and gears that construct it. -/
theorem test_witness_ConstructionChecks :
    (0 < (1 : Int) ∧ (1 : Int) ≤ Limits.default.maxRings ∧ (1024 : Int) ≤ Limits.default.maxGears) ∧
    (constructCPU Limits.default 6 (ringsOf 70 [0]) 64 1 false).toOption.isSome = true ∧
    (constructCPU Limits.default 7 (ringsOf 70 [0]) 64 1 false).toOption.isSome = false ∧
    (constructCPU Limits.default 0 (ringsOf 360 [0, 0]) 360 2 false).toOption.isSome = true ∧
    (constructCPU Limits.default 0 (ringsOf 360 [0, 0]) 720 1 false).toOption.isSome = true := by decide +kernel

/-- A program at the bound and one past it, with a bound of 1. -/
theorem test_witness_LoadProgramRestarts :
    let s := { core53 with config := { core53.config with limits := ⟨256, 1024, 1⟩ } }
    [Slot.word 0].length ≤ s.config.limits.maxProgramLen ∧
    s.config.limits.maxProgramLen < [Slot.word 0, Slot.word 0].length := by decide

theorem test_witness_OnlyConstructionClearsAFault :
    (core53.raise .outOfRange).fault = some ⟨.outOfRange, 0⟩ ∧ (∀ nr g, HostCall.step ≠ .constructMachine nr g) ∧
    (∀ w n h, HostCall.step ≠ .constructCPU w n h) :=
  ⟨rfl, by simp, by simp⟩

theorem test_witness_InspectionHasNoSideEffect :
    HostCall.halted ∈ [HostCall.halted, .instructionPointer, .registerBits 0] := by decide

/-- The last register, and the first index outside the bank. -/
theorem test_witness_RegisterDumpIsLsbFirst :
    core53.wf = true ∧ 2 < core53.config.regCount ∧ core53.config.regCount ≤ 3 := by decide +kernel

/-- The whole last ring; one bit too many; the first ring outside. -/
theorem test_witness_RingDumpListsLogicalIndices :
    core53.mem.wf = true ∧
    ((2 : Int) < core53.mem.ringCount ∧ (64 : Int) ≤ core53.mem.gearCount) ∧
    ¬ ((65 : Int) ≤ core53.mem.gearCount) ∧ ¬ ((3 : Int) < core53.mem.ringCount) := by decide +kernel

theorem test_witness_CapacityIsExact :
    (0 < 1 ∧ 0 < 64 ∧ ((2 : Nat) = 1 ∨ (2 : Nat) = 2)) ∧ ((0 : Int) ≤ 0 ∨ (64 : Int) ≤ 0) := by decide

theorem test_witness_HostWritesARegister : core720.wf = true ∧ 1 < core720.config.regCount := by decide +kernel

/-- A W360 register, and a W64 register that fills its ring. -/
theorem test_witness_FullRingTurnRotatesTheValue :
    (core360.wf = true ∧ 1 < core360.config.regCount ∧ core360.config.profile = .w360 ∧
      (core360.mem.rings[1]?).isSome = true ∧ 359 < core360.mem.gearCount) ∧
    (core53.wf = true ∧ 2 < core53.config.regCount ∧ core53.config.profile = .w64 ∧ core53.config.w64Base = 0 ∧
      core53.mem.gearCount = 64 ∧ (core53.mem.rings[2]?).isSome = true) := by decide +kernel

theorem test_witness_W720HalvesTurnApart :
    core720.wf = true ∧ 1 < core720.config.regCount ∧ core720.config.profile = .w720 ∧
    (core720.mem.rings[2]?).isSome = true ∧ (core720.mem.rings[3]?).isSome = true ∧ 359 < 360 := by decide +kernel

theorem test_witness_WindowedW64ReadsItsRing :
    windowed.wf = true ∧ 0 < windowed.config.regCount ∧ windowed.config.profile = .w64 ∧
    (windowed.mem.rings[0]?).map (·.dir) = some .left ∧ 63 < 64 := by decide +kernel

theorem test_witness_WholeTurnsRestoreTheRings :
    core53.mem.wf = true ∧ (core53.mem.gearCount : Int) ∣ [1, 62, 1].sum ∧
    (core53.mem.gearCount : Int) ∣ [-64].sum := by decide +kernel

end Sys2Proof.Tests
end

section
/-! Reducing a step count and turning rings (40_ring_machine.md R100, R101, R107, R108). -/

namespace Sys2Proof.Machine

/-! ### The reduction of a step count -/

theorem natCast_normalizeSteps {g : Nat} (hg : 0 < g) (s : Int) : (normalizeSteps g s : Int) = s % (g : Int) :=
  Int.toNat_of_nonneg (Int.emod_nonneg _ (by omega))

theorem normalizeSteps_lt {g : Nat} (hg : 0 < g) (s : Int) : normalizeSteps g s < g := by
  have h := Int.emod_lt_of_pos s (show (0 : Int) < g by omega)
  rw [← natCast_normalizeSteps hg] at h
  omega

theorem dvd_sub_normalizeSteps {g : Nat} (hg : 0 < g) (s : Int) : (g : Int) ∣ s - normalizeSteps g s := by
  rw [natCast_normalizeSteps hg]
  exact Int.dvd_self_sub_emod

/-- R100's corner cases: a negative count, multiples of `G` included. -/
theorem normalizeSteps_neg_natCast (g n : Nat) :
    normalizeSteps g (-(n : Int)) = if n % g = 0 then 0 else g - n % g := by
  simp only [normalizeSteps, Int.neg_emod, Int.natCast_dvd_natCast, Nat.dvd_iff_mod_eq_zero]
  split
  · rfl
  · omega

/-- Settles O8: the Euclidean remainder, and its formula on negative counts. -/
theorem stepsNormalize : Obligations.StepsNormalize := by
  intro g s hg
  refine ⟨normalizeSteps_lt hg s, dvd_sub_normalizeSteps hg s, ?_⟩
  rintro n rfl
  exact normalizeSteps_neg_natCast g n

/-! ### Turning one ring -/

/-- Whole turns leave an offset where it was. -/
theorem turned_of_dvd {g o : Nat} {k : Int} (ho : o < g) (hk : (g : Int) ∣ k) (d : Dir) : turned g d o k = o := by
  have h : ((o : Int) + dirSign d * k) % g = o := by
    rw [Int.add_emod, Int.emod_eq_zero_of_dvd (hk.mul_left _), add_zero, Int.emod_emod]
    exact Int.emod_eq_of_lt (by omega) (by omega)
  rw [turned, h, Int.toNat_natCast]

/-- R101's corner case: Right by `k` and Left by `G - k` reach the same offset. -/
theorem turned_right_eq_left (g o : Nat) (k : Int) : turned g .right o k = turned g .left o ((g : Int) - k) := by
  have h : (o : Int) + dirSign .left * ((g : Int) - k) = o + dirSign .right * k + g := by
    simp only [dirSign]; ring
  rw [turned, turned, h, Int.add_emod_right]

/-- Settles O9, from the turned offset of `Ring.rotate_eq`. -/
theorem ringRotates : Obligations.RingRotates := by
  intro g r d steps hg ho
  simp only [Ring.rotate_eq hg, true_and]
  exact ⟨fun hk => turned_of_dvd ho hk d, turned_right_eq_left g r.offset steps⟩

/-! ### Turning the Machine's rings -/

theorem Memory.lt_ringCount {m : Memory} {i : Nat} {r : Ring} (h : m.rings[i]? = some r) : i < m.ringCount :=
  (List.getElem?_eq_some_iff.1 h).1

@[simp] theorem Memory.setRing_ringCount (m : Memory) (i : Nat) (r : Ring) :
    (m.setRing i r).ringCount = m.ringCount := List.length_set

/-- R106 on `Machine.rotate`: no ring, no turn. -/
theorem Memory.rotate_error {m : Memory} {i : Int} (h : i < 0 ∨ (m.ringCount : Int) ≤ i) (d : Dir) (k : Int) :
    m.rotate i d k = .error .outOfRange := by
  rw [Memory.rotate, Memory.ringAt_error h]

/-- Settles O12: `Machine.rotate` replaces the named ring, by its turn, and no other. -/
theorem machineRotatesOneRing : Obligations.MachineRotatesOneRing := by
  intro m d steps hw
  obtain ⟨hg, -, -⟩ := m.wf_iff.1 hw
  refine ⟨fun i r hr => ⟨_, Memory.rotate_ok hr d steps, rfl, m.setRing_ringCount i _, ?_, fun j hj => ?_⟩,
    fun i hi => Memory.rotate_error hi d steps⟩
  · rw [m.setRing_rings (Memory.lt_ringCount hr), if_pos rfl, Ring.rotate_eq hg]
  · rw [m.setRing_rings (Memory.lt_ringCount hr), if_neg hj.symm]

/-- R108: the global tick, ring by ring. -/
theorem Memory.turnedAll_rotateAll {m : Memory} (hg : 0 < m.gearCount) (k : Int) :
    m.turnedAll (m.rotateAll k) k := by
  refine ⟨m.rotateAll_gearCount k, m.rotateAll_ringCount k, fun i r hr => ?_⟩
  rw [m.rotateAll_rings, hr, Option.map_some, Ring.rotate_eq hg]

/-- A turn by 0 steps in a ring's own direction is no turn. -/
theorem Ring.rotate_zero {g : Nat} {r : Ring} (ho : r.offset < g) : r.rotate g r.dir 0 = r := by
  rw [Ring.rotate_eq (by omega), turned_of_dvd ho (dvd_zero _)]

theorem Memory.rotateAll_zero {m : Memory} (hw : m.wf = true) : m.rotateAll 0 = m := by
  obtain ⟨-, -, hr⟩ := m.wf_iff.1 hw
  have h : (m.rotateAll 0).rings = m.rings := by
    refine List.ext_getElem? fun i => ?_
    rw [m.rotateAll_rings]
    cases hi : m.rings[i]? with
    | none => rfl
    | some r => rw [Option.map_some, Ring.rotate_zero (hr i r hi).2]
  exact congrArg (Memory.mk m.gearCount) h

/-- Settles O13, from the tick ring by ring and the turn by 0. -/
theorem globalTickTurnsEveryRing : Obligations.GlobalTickTurnsEveryRing := by
  intro m k hw
  obtain ⟨hg, -, -⟩ := m.wf_iff.1 hw
  exact ⟨Memory.turnedAll_rotateAll hg k, Memory.rotateAll_zero hw⟩

end Sys2Proof.Machine
end

section
/-! Writing and flipping one bit (40_ring_machine.md R102 to R106, R110). -/

namespace Sys2Proof.Machine

/-! ### Where a logical index lives -/

/-- What it means that R102's check passes. -/
theorem Ring.logicalToPhysical_eq_ok {g : Nat} {r : Ring} {i : Int} {p : Nat} :
    r.logicalToPhysical g i = .ok p ↔ 0 ≤ i ∧ i < (g : Int) ∧ (i.toNat + r.offset) % g = p := by
  unfold Ring.logicalToPhysical
  split
  · rename_i h; simp [h]
  · rename_i h; simp only [reduceCtorEq, false_iff]; tauto

theorem Ring.logicalToPhysical_inside {g : Nat} (r : Ring) {i : Int} (h0 : 0 ≤ i) (hi : i < (g : Int)) :
    r.logicalToPhysical g i = .ok ((i.toNat + r.offset) % g) := Ring.logicalToPhysical_eq_ok.2 ⟨h0, hi, rfl⟩

theorem Ring.logicalToPhysical_error {g : Nat} (r : Ring) {i : Int} (h : i < 0 ∨ (g : Int) ≤ i) :
    r.logicalToPhysical g i = .error .outOfRange := if_neg (by omega)

@[simp] theorem Ring.setCell_logicalToPhysical (g : Nat) (r : Ring) (p : Nat) (b : Bool) (i : Int) :
    (r.setCell p b).logicalToPhysical g i = r.logicalToPhysical g i := rfl

/-- R58 on the ring's own accessor: one cell has one logical index. -/
theorem Ring.logicalToPhysical_inj {g : Nat} {r : Ring} {i j : Int} {p : Nat}
    (hi : r.logicalToPhysical g i = .ok p) (hj : r.logicalToPhysical g j = .ok p) : i = j := by
  obtain ⟨hi0, hig, hip⟩ := Ring.logicalToPhysical_eq_ok.1 hi
  obtain ⟨hj0, hjg, hjp⟩ := Ring.logicalToPhysical_eq_ok.1 hj
  have := shifted_inj (by omega) (by omega) (hip.trans hjp.symm)
  omega

/-- R102, R106: a place inside the rings is stored in a cell. -/
theorem Memory.locate_inside {m : Memory} {ring i : Int} (h0 : 0 ≤ ring) (hr : ring < (m.ringCount : Int))
    (hi0 : 0 ≤ i) (hi : i < (m.gearCount : Int)) : ∃ q, m.locate ring i = .ok q := by
  obtain ⟨r, hring⟩ := Memory.exists_ring (m := m) (i := ring.toNat) (by omega)
  refine ⟨(ring.toNat, (i.toNat + r.offset) % m.gearCount), ?_⟩
  simp only [Memory.locate, Memory.ringAt_eq_ok.2 ⟨h0, hring⟩, r.logicalToPhysical_inside hi0 hi]

/-- R102, R106: a place outside the rings is stored nowhere. -/
theorem Memory.locate_outside {m : Memory} {ring i : Int}
    (h : ¬ (0 ≤ ring ∧ ring < (m.ringCount : Int) ∧ 0 ≤ i ∧ i < (m.gearCount : Int))) :
    m.locate ring i = .error .outOfRange := by
  by_cases hr : ring < 0 ∨ (m.ringCount : Int) ≤ ring
  · rw [Memory.locate, Memory.ringAt_error hr]
  · obtain ⟨r, hring⟩ := Memory.exists_ring (m := m) (i := ring.toNat) (by omega)
    have hi : i < 0 ∨ (m.gearCount : Int) ≤ i := by omega
    have h0 : 0 ≤ ring := by omega
    simp only [Memory.locate, Memory.ringAt_eq_ok.2 ⟨h0, hring⟩, r.logicalToPhysical_error hi]

/-! ### Writing a bit of the Machine -/

/-- R110 through the cell it writes; the value is masked to its low bit (R104). -/
theorem Memory.setBit_eq_setCell {m : Memory} {ring i : Int} {q : Nat × Nat} (h : m.locate ring i = .ok q)
    (v : Int) : m.setBit ring i v = .ok (m.setCell q.1 q.2 (maskBit v)) := by
  rw [Memory.setBit, m.putBit_eq_setCell, h]

theorem Memory.setBit_error {m : Memory} {ring i : Int} {e : FailureKind} (h : m.locate ring i = .error e)
    (v : Int) : m.setBit ring i v = .error e := by
  rw [Memory.setBit, m.putBit_eq_setCell, h]

/-- Reading the place just written. -/
theorem Memory.getBit_setCell_self {m : Memory} (hw : m.wf = true) {ring i : Int} {q : Nat × Nat}
    (h : m.locate ring i = .ok q) (b : Bool) : (m.setCell q.1 q.2 b).getBit ring i = .ok b := by
  rw [Memory.getBit_eq_cell, Memory.locate_congr (m.setCell_shape _ _ _), h]
  simp only [Memory.cell_setCell_self (Memory.hasCell_of_locate hw h)]

/-- Reading a place that is not stored in the written cell. -/
theorem Memory.getBit_setCell_ne {m : Memory} {ring i : Int} {q : Nat × Nat} (h : m.locate ring i ≠ .ok q)
    (b : Bool) : (m.setCell q.1 q.2 b).getBit ring i = m.getBit ring i := by
  rw [Memory.getBit_eq_cell, Memory.getBit_eq_cell, Memory.locate_congr (m.setCell_shape _ _ _)]
  cases hl : m.locate ring i with
  | error e => rfl
  | ok q' =>
    have hq : (q'.1, q'.2) ≠ (q.1, q.2) := fun e => h (hl.trans (congrArg Except.ok e))
    simp only [m.cell_setCell_ne hq]

/-- Settles O15: `setBit` writes the one cell that `locate` names. -/
theorem writtenBitReadsBack : Obligations.WrittenBitReadsBack := by
  intro m ring i v hw
  constructor
  · rintro ⟨h0, hr, hi0, hi⟩
    obtain ⟨q, hq⟩ := Memory.locate_inside h0 hr hi0 hi
    refine ⟨_, Memory.setBit_eq_setCell hq v, Memory.setBit_keeps_wf (Memory.setBit_eq_setCell hq v) hw,
      m.setCell_shape _ _ _, Memory.getBit_setCell_self hw hq _, fun ring' i' hne => ?_⟩
    exact Memory.getBit_setCell_ne (hq ▸ hne) _
  · intro hout
    exact Memory.setBit_error (Memory.locate_outside hout) v

/-! ### Flipping a bit of a ring -/

theorem Ring.getBit_of_physical {g : Nat} {r : Ring} {i : Int} {p : Nat} (h : r.logicalToPhysical g i = .ok p) :
    r.getBit g i = .ok (r.cell p) := by rw [Ring.getBit, h]

theorem Ring.flipBit_of_physical {g : Nat} {r : Ring} {i : Int} {p : Nat} (h : r.logicalToPhysical g i = .ok p) :
    r.flipBit g i = .ok (r.setCell p (!r.cell p)) := by rw [Ring.flipBit, h]

theorem Ring.cell_setCell_self {r : Ring} {p : Nat} (h : p < r.cells.length) (b : Bool) :
    (r.setCell p b).cell p = b := by
  simp [Ring.cell, Ring.setCell, h]

theorem Ring.cell_setCell_ne (r : Ring) {p q : Nat} (h : p ≠ q) (b : Bool) : (r.setCell p b).cell q = r.cell q := by
  simp [Ring.cell, Ring.setCell, List.getElem?_set_ne h]

@[simp] theorem Ring.setCell_setCell (r : Ring) (p : Nat) (a b : Bool) :
    (r.setCell p a).setCell p b = r.setCell p b := by
  simp [Ring.setCell]

/-- Writing back what a cell holds changes nothing. -/
theorem Ring.setCell_cell {r : Ring} {p : Nat} (h : p < r.cells.length) : r.setCell p (r.cell p) = r := by
  simp [Ring.setCell, Ring.cell, h]

theorem Ring.getBit_setCell_ne {g : Nat} {r : Ring} {j : Int} {p : Nat} (h : r.logicalToPhysical g j ≠ .ok p)
    (b : Bool) : (r.setCell p b).getBit g j = r.getBit g j := by
  simp only [Ring.getBit, Ring.setCell_logicalToPhysical]
  cases hj : r.logicalToPhysical g j with
  | error e => rfl
  | ok q =>
    have hpq : p ≠ q := fun e => h (hj.trans (congrArg Except.ok e.symm))
    simp only [r.cell_setCell_ne hpq]

/-- A second flip of the same cell gives the ring back. -/
theorem Ring.flipBit_setCell_not {g : Nat} {r : Ring} {i : Int} {p : Nat} (h : r.logicalToPhysical g i = .ok p)
    (hp : p < r.cells.length) : (r.setCell p (!r.cell p)).flipBit g i = .ok r := by
  rw [Ring.flipBit_of_physical ((r.setCell_logicalToPhysical ..).trans h), Ring.cell_setCell_self hp, Bool.not_not,
    Ring.setCell_setCell, Ring.setCell_cell hp]

/-- Settles O16: `flipBit` writes the complement of the one cell its index names, and other indices name other
cells. -/
theorem flipBitComplements : Obligations.FlipBitComplements := by
  intro g r i hlen ho
  constructor
  · intro h0 hi
    have hp := r.logicalToPhysical_inside h0 hi
    have hlt : (i.toNat + r.offset) % g < r.cells.length := by rw [hlen]; exact Nat.mod_lt _ (by omega)
    refine ⟨_, _, Ring.getBit_of_physical hp, Ring.flipBit_of_physical hp, ?_, Ring.flipBit_setCell_not hp hlt,
      fun j hj => Ring.getBit_setCell_ne (fun hj' => hj (Ring.logicalToPhysical_inj hj' hp)) _⟩
    rw [Ring.getBit_of_physical ((r.setCell_logicalToPhysical ..).trans hp), Ring.cell_setCell_self hlt]
  · intro hout
    rw [Ring.flipBit, r.logicalToPhysical_error hout]

end Sys2Proof.Machine
end

section
/-! The widths of the three kinds of Word and where their bits lie (41_word_alu.md R130, R131). -/

namespace Sys2Proof.Machine

/-- R131 for a bit index of either sign: the place `wordIndex` gives, inside the width only. -/
theorem WordDesc.resolveBit_eq (w : WordDesc) (j : Int) :
    w.resolveBit j =
      if 0 ≤ j ∧ j < (w.width : Int) then .ok (wordIndex w j.toNat) else .error .outOfRange := by
  split
  · rename_i h
    have hj : j.toNat < w.width := by omega
    rw [← Int.toNat_of_nonneg h.1, w.resolveBit_natCast, Int.toNat_natCast, if_pos hj]
  · rename_i h
    exact if_neg h

theorem wordIndex_w720_lo {lo hi j : Nat} (h : j < 360) : wordIndex (.w720 lo hi) j = (lo, j) := if_pos h

theorem wordIndex_w720_hi {lo hi j : Nat} (h : 360 ≤ j) : wordIndex (.w720 lo hi) j = (hi, j - 360) :=
  if_neg (by omega)

/-- R131 for W720: its bits below 360 are the first ring's, its bits from 360 on the second ring's. -/
theorem WordDesc.resolveBit_w720 (lo hi : Nat) (j : Int) :
    (WordDesc.w720 lo hi).resolveBit j =
      if 0 ≤ j ∧ j < 360 then .ok (lo, j.toNat)
      else if 360 ≤ j ∧ j < 720 then .ok (hi, (j - 360).toNat) else .error .outOfRange := by
  have hwidth : ((WordDesc.w720 lo hi).width : Int) = 720 := rfl
  rw [WordDesc.resolveBit_eq, hwidth]
  by_cases hlo : 0 ≤ j ∧ j < 360
  · rw [if_pos (by omega), if_pos hlo, wordIndex_w720_lo (by omega)]
  · rw [if_neg hlo]
    by_cases hhi : 360 ≤ j ∧ j < 720
    · have hsub : j.toNat - 360 = (j - 360).toNat := by omega
      rw [if_pos (by omega), if_pos hhi, wordIndex_w720_hi (by omega), hsub]
    · rw [if_neg (by omega), if_neg hhi]

/-- Settles O18: `resolveBit` at each kind of Word, where `width` and `wordIndex` compute. -/
theorem bitsResolveToTheirRings : Obligations.BitsResolveToTheirRings := fun ring base lo hi j =>
  ⟨⟨rfl, rfl, rfl⟩, (WordDesc.w64 ring base).resolveBit_eq j, (WordDesc.w360 ring).resolveBit_eq j,
    WordDesc.resolveBit_w720 lo hi j⟩

end Sys2Proof.Machine
end

section
/-! The steps that dispatch nothing: a halted core and the end of the program (42_cpu_step.md R152, R153). -/

namespace Sys2Proof.Machine

/-! ### What such a step answers -/

theorem step_of_halted {s : State} (hf : s.fault = none) (hh : s.halted = true) : step s = .next s := by
  rw [step, hf]
  exact if_pos hh

theorem State.fetch_eq_none_iff {s : State} : s.fetch = none ↔ s.prog.length ≤ s.ip := List.getElem?_eq_none_iff

theorem step_of_end {s : State} (hf : s.fault = none) (hh : s.halted = false) (hend : s.prog.length ≤ s.ip) :
    step s = .next s.setHalted := by
  rw [step, hf, hh, State.fetch_eq_none_iff.2 hend]
  rfl

/-! ### What the host gets from it -/

/-- R193: a step that has a next state hands the host that state and the fault it records. -/
theorem hostStep_of_next {s t : State} (h : step s = .next t) : hostStep s = (t, t.fault) := by
  rw [hostStep, h]

/-- R150: a step that reaches a state without a fault returns normally. -/
theorem hostStep_returns {s t : State} (h : step s = .next t) (hf : t.fault = none) : hostStep s = (t, none) := by
  rw [hostStep_of_next h, hf]

/-- Settles O35: `halted` is looked at before the fetch and before any tick. -/
theorem haltedStepDoesNothing : Obligations.HaltedStepDoesNothing := by
  intro s hf hh
  have hstep : step s = .next s := step_of_halted hf hh
  exact ⟨hstep, hostStep_returns hstep hf⟩

/-- Settles O36: past the program the fetch finds nothing, and setting `halted` keeps the empty fault record. -/
theorem endOfProgramHalts : Obligations.EndOfProgramHalts := by
  intro s hf hh hend
  have hstep : step s = .next s.setHalted := step_of_end hf hh hend
  exact ⟨hstep, hostStep_returns hstep hf⟩

end Sys2Proof.Machine
end

section
/-! The register dump: the bits of one register as the host reads them (44_host_interface.md R196). -/

namespace Sys2Proof.Machine

/-! ### Reading bits in a row -/

/-- Reads that all succeed give the bits read, in increasing order. -/
theorem readBits_eq_map {get : Nat → Except FailureKind Bool} {f : Nat → Bool} {n j : Nat}
    (h : ∀ i, j ≤ i → i < j + n → get i = .ok (f i)) : readBits get n j = .ok ((List.range' j n).map f) := by
  induction n generalizing j with
  | zero => rfl
  | succ n ih =>
    have htail : readBits get n (j + 1) = .ok ((List.range' (j + 1) n).map f) :=
      ih fun i hj hi => h i (by omega) (by omega)
    simp only [readBits, h j le_rfl (by omega), htail, List.range'_succ, List.map_cons]

/-- R132: every bit of a Word the Machine holds can be read. -/
theorem Memory.wordGet_ok {m : Memory} {w : WordDesc} (h : m.holdsWord w = true) {j : Nat} (hj : j < w.width) :
    m.wordGet w j = .ok (m.wordBit w j) := by
  obtain ⟨_, -, hq⟩ := Memory.wordCell_ok h hj
  rw [Memory.wordBit_eq_cell hq, Memory.wordGet_eq_cell, hq]

/-! ### The dump -/

/-- R196 on a register of the bank: its bits, bit 0 first. -/
theorem State.registerBitList_eq_map {s : State} (hw : s.wf = true) {k : Nat} (hk : k < s.config.regCount) :
    s.registerBitList k = .ok ((List.range' 0 (profileWidth s.config.profile)).map (s.regBit k)) := by
  have hread : ∀ j, 0 ≤ j → j < 0 + profileWidth s.config.profile →
      s.mem.wordGet (s.regWord k) j = .ok (s.regBit k j) := fun j _ hj =>
    Memory.wordGet_ok (s.holdsWord_regWord hw hk) (by rw [s.regWord_width]; omega)
  rw [State.registerBitList, if_pos (by omega), Int.toNat_natCast, s.regWord_width, readBits_eq_map hread]

/-- R196 outside the bank. -/
theorem State.registerBitList_error {s : State} {k : Int} (h : k < 0 ∨ (s.config.regCount : Int) ≤ k) :
    s.registerBitList k = .error .outOfRange := if_neg (by omega)

/-- Settles O53: the list behind the dump is the register's bits in increasing order. -/
theorem registerDumpIsLsbFirst : Obligations.RegisterDumpIsLsbFirst := by
  intro s k hw
  constructor
  · intro hk
    have hlist := s.registerBitList_eq_map hw hk
    refine ⟨_, hlist, by rw [State.registerBits, hlist], by simp, by simp, fun j hj => ?_⟩
    simp [hj]
  · intro hout
    rw [State.registerBits, State.registerBitList_error (by omega)]

end Sys2Proof.Machine
end

section
/-! The binary format: which words are illegal, what a legal word decodes to, and the encoder's round trip
(30_encoding.md R71 to R79). -/

namespace Sys2Proof

/-! ### Opcodes, directions and immediates as field values -/

@[simp] theorem opcodeOfNumber_number (op : Opcode) : opcodeOfNumber op.number = some op := by cases op <;> rfl

@[simp] theorem dirOfBit_bit (d : Dir) : dirOfBit d.bit = d := by cases d <;> rfl

/-- R72 the other way: a selected opcode is the field's value. -/
theorem number_of_opcodeOfNumber {n : Nat} {op : Opcode} (h : opcodeOfNumber n = some op) : n = op.number := by
  unfold opcodeOfNumber at h
  split at h <;> cases h <;> rfl

/-- R72: exactly 9 and above are reserved. -/
theorem opcodeOfNumber_eq_none {n : Nat} : opcodeOfNumber n = none ↔ 9 ≤ n := by
  constructor
  · intro h
    by_contra hn
    interval_cases n <;> cases h
  · intro h
    cases hop : opcodeOfNumber n with
    | none => rfl
    | some op =>
      have hn := number_of_opcodeOfNumber hop
      cases op <;> simp only [Opcode.number] at hn <;> omega

theorem immFits_iff {v : Int} : immFits v = true ↔ -2147483648 ≤ v ∧ v < 2147483648 := by
  simp [immFits]

/-- R75: the 32-bit field holds every immediate of its range. -/
theorem sext32_imm32 {v : Int} (h : immFits v = true) : sext32 (imm32 v) = v := by
  obtain ⟨hlo, hhi⟩ := immFits_iff.1 h
  unfold sext32 imm32
  split <;> omega

/-! ### Which records the format holds -/

theorem Record.wellFormed_iff (r : Record) : r.wellFormed = true ↔
    r.a ≤ 255 ∧ r.b ≤ 255 ∧ r.c ≤ 255 ∧ immFits r.imm = true := by
  simp [Record.wellFormed, indexFits, and_assoc]

/-- R79: the ignored fields of an instruction's record are 0, so they always fit. -/
theorem Instr.record_wellFormed (i : Instr) : i.record.wellFormed = i.wellFormed := by
  have h0 : indexFits 0 = true := by decide
  have himm0 : immFits 0 = true := by decide
  cases i <;> simp [Instr.record, Record.wellFormed, Instr.wellFormed, h0, himm0]

@[simp] theorem Instr.record_instr (i : Instr) : i.record.instr = i := by cases i <;> rfl

/-- R76: the fields an opcode reads are among the record's fields. -/
theorem Record.instr_wellFormed {r : Record} (h : r.wellFormed = true) : r.instr.wellFormed = true := by
  obtain ⟨ha, hb, hc, himm⟩ := r.wellFormed_iff.1 h
  rw [Record.instr]
  cases r.op <;> simp [Instr.wellFormed, indexFits, ha, hb, hc, himm]

/-! ### The round trip -/

/-- R79: the packed word of a record that fits is read back field by field. -/
theorem decodeRecord_packWord {r : Record} (h : r.wellFormed = true) :
    decodeRecord (packWord r.op.number r.dir.bit r.a r.b r.c (imm32 r.imm)) = .ok r := by
  obtain ⟨ha, hb, hc, himm⟩ := r.wellFormed_iff.1 h
  obtain ⟨hop, hd, hrsv, hfa, hfb, hfc, hfimm⟩ :=
    Laws.packWord_fields (Laws.number_lt r.op) (Laws.bit_lt r.dir) ha hb hc (Laws.imm32_lt r.imm)
  simp only [decodeRecord, hop, opcodeOfNumber_number, hrsv, if_true, hfa, hfb, hfc, hfimm, hd, dirOfBit_bit,
    sext32_imm32 himm]

theorem decode_encode {i : Instr} (h : i.wellFormed = true) : decode (encode i) = .ok i := by
  have hrec : decodeRecord (encode i) = .ok i.record :=
    decodeRecord_packWord (i.record_wellFormed.trans h)
  simp only [decode, hrec, i.record_instr]

/-- Settles O1: the word holds the instruction's record, field by field. -/
theorem decodeEncodeRoundTrip : Obligations.DecodeEncodeRoundTrip := fun _ h => decode_encode h

/-- Settles O2: the fields that are encoded are those of the record's instruction, which fit where the record does. -/
theorem recordEncodesWhenItFits : Obligations.RecordEncodesWhenItFits := by
  intro r
  by_cases h : r.wellFormed = true
  · have hw : r.encode = some (encode r.instr) := if_pos h
    refine ⟨iff_of_true ⟨_, hw⟩ (by simpa only [immFits_iff] using r.wellFormed_iff.1 h), fun w hw' => ?_⟩
    obtain rfl : encode r.instr = w := Option.some.inj (hw.symm.trans hw')
    exact decode_encode (Record.instr_wellFormed h)
  · have hn : r.encode = none := if_neg h
    rw [r.wellFormed_iff, immFits_iff] at h
    exact ⟨iff_of_false (by simp [hn]) h, by simp [hn]⟩

/-! ### Illegal words -/

theorem field_opcode (w : InstrWord) : field w 0 4 = w.toNat % 16 := by simp [field]

theorem field_reserved (w : InstrWord) : field w 5 3 = w.toNat / 32 % 8 := by simp [field]

/-- The record of a legal word (R71 to R75). -/
def fieldsRecord (op : Opcode) (w : InstrWord) : Record :=
  { op := op, a := field w 8 8, b := field w 16 8, c := field w 24 8, imm := sext32 (field w 32 32),
    dir := dirOfBit (field w 4 1) }

/-- R77, both ways: a word is refused for its opcode or its reserved field, or is read field by field. -/
theorem decode_cases (w : InstrWord) :
    ((9 ≤ w.toNat % 16 ∨ w.toNat / 32 % 8 ≠ 0) ∧ ∃ e, decode w = .error e) ∨
    (∃ op : Opcode, w.toNat % 16 = op.number ∧ w.toNat / 32 % 8 = 0 ∧
      decode w = .ok (fieldsRecord op w).instr) := by
  rw [decode, decodeRecord, ← field_opcode, ← field_reserved]
  cases hop : opcodeOfNumber (field w 0 4) with
  | none => exact .inl ⟨.inl (opcodeOfNumber_eq_none.1 hop), _, rfl⟩
  | some op =>
    by_cases hrsv : field w 5 3 = 0
    · exact .inr ⟨op, number_of_opcodeOfNumber hop, hrsv, by simp only [if_pos hrsv, fieldsRecord]⟩
    · exact .inl ⟨.inr hrsv, .reservedField (field w 5 3), by simp only [if_neg hrsv]⟩

theorem decode_eq_error_iff (w : InstrWord) :
    (∃ e, decode w = .error e) ↔ 9 ≤ w.toNat % 16 ∨ w.toNat / 32 % 8 ≠ 0 := by
  obtain ⟨hill, herr⟩ | ⟨op, hop, hrsv, hok⟩ := decode_cases w
  · exact iff_of_true herr hill
  · have hlegal : ¬ (9 ≤ w.toNat % 16 ∨ w.toNat / 32 % 8 ≠ 0) := by
      have : op.number < 9 := by cases op <;> decide
      omega
    exact iff_of_false (by simp [hok]) hlegal

/-! ### The fields as bit ranges -/

theorem field_eq_extractLsb' (w : InstrWord) (lo width : Nat) : field w lo width = (w.extractLsb' lo width).toNat := by
  rw [BitVec.extractLsb'_toNat, Nat.shiftRight_eq_div_pow, field]

/-- R75: sign extension is the two's-complement value of the 32 bits. -/
theorem sext32_toNat (v : BitVec 32) : sext32 v.toNat = v.toInt := by
  rw [sext32, BitVec.toInt_eq_toNat_cond]
  split <;> split <;> omega

/-- R73: the direction is bit 4. -/
theorem dirOfBit_field (w : InstrWord) : dirOfBit (field w 4 1) = if w.getLsbD 4 then Dir.right else Dir.left := by
  have hbit : w.getLsbD 4 = decide (field w 4 1 = 1) := by
    rw [BitVec.getLsbD, Nat.testBit_eq_decide_div_mod_eq, field, pow_one]
  rw [hbit, dirOfBit]
  have : field w 4 1 < 2 := Nat.mod_lt _ (by decide)
  by_cases h : field w 4 1 = 0
  · simp [h]
  · simp [show field w 4 1 = 1 by omega]

/-- The instruction of a word whose opcode field is `op`, by its bit ranges. -/
theorem fieldsRecord_instr (op : Opcode) (w : InstrWord) :
    (fieldsRecord op w).instr =
      Record.instr ⟨op, (w.extractLsb' 8 8).toNat, (w.extractLsb' 16 8).toNat, (w.extractLsb' 24 8).toNat,
        (w.extractLsb' 32 32).toInt, if w.getLsbD 4 then Dir.right else Dir.left⟩ := by
  rw [fieldsRecord, dirOfBit_field, field_eq_extractLsb' w 32 32, sext32_toNat]
  simp only [field_eq_extractLsb']

/-- Settles O4: a legal word is read field by field, and each field is a range of its bits. -/
theorem decodeReadsTheFields : Obligations.DecodeReadsTheFields := by
  intro w i hi
  obtain ⟨-, e, herr⟩ | ⟨op, hop, hrsv, hok⟩ := decode_cases w
  · rw [herr] at hi; cases hi
  · obtain rfl : (fieldsRecord op w).instr = i := Except.ok.inj (hok.symm.trans hi)
    simp only [fieldsRecord_instr, hop, hrsv, true_and]
    cases op <;> exact ⟨by decide, rfl⟩

/-- Settles O5: the two words have one opcode, and the instruction of an opcode reads the fields they agree on. -/
theorem unusedFieldsAreIgnored : Obligations.UnusedFieldsAreIgnored := by
  intro v w hop hrsv hread
  simp only [decode, decodeRecord, ← hop, ← hrsv]
  cases ho : opcodeOfNumber (field v 0 4) with
  | none => rfl
  | some op =>
    rw [ho] at hread
    by_cases hz : field v 5 3 = 0
    · simp only [if_pos hz, Except.ok.injEq]
      cases op with
      | nop | halt => rfl
      | mov =>
        obtain ⟨ha, hb⟩ := hread
        simp only [Record.instr, ha, hb]
      | xor | and | or | add =>
        obtain ⟨ha, hb, hc⟩ := hread
        simp only [Record.instr, ha, hb, hc]
      | shiftRing =>
        obtain ⟨ha, hd, himm⟩ := hread
        simp only [Record.instr, ha, hd, himm]
      | tickAll => simp only [Record.instr, hread]
    · simp only [if_neg hz]

/-- Settles O6: the nine words, decoded by computation. -/
theorem sampleWordsDecode : Obligations.SampleWordsDecode := by
  refine ⟨?_, ?_, ?_, ?_, ?_, ?_, ?_, ?_, ?_⟩ <;> decide

end Sys2Proof
end

section
/-! Loading a program, illegal words among it, and meeting one (30_encoding.md R77, 42_cpu_step.md R155, R159,
44_host_interface.md R192). -/

namespace Sys2Proof.Machine

theorem step_of_illegal {s : State} {slot : Slot} {e : DecodeError} (hf : s.fault = none) (hh : s.halted = false)
    (hp : s.prog[s.ip]? = some slot) (he : slot.instr = .error e) :
    step s = .next (s.glyphPreTick.raise .illegalEncoding) := by
  have hfetch : s.fetch = some slot := hp
  simp [step, hf, hh, hfetch, he]

theorem State.loadProgram_of_le {s : State} {p : List Slot} (h : p.length ≤ s.config.limits.maxProgramLen) :
    s.loadProgram p = some { s with prog := p, ip := 0, halted := false } := if_pos h

/-- R192: what a program that loads leaves. -/
theorem State.eq_of_loadProgram {s t : State} {p : List Slot} (h : s.loadProgram p = some t) :
    t = { s with prog := p, ip := 0, halted := false } := by
  unfold State.loadProgram at h
  split at h <;> cases h
  rfl

theorem State.loadProgram_of_lt {s : State} {p : List Slot} (h : s.config.limits.maxProgramLen < p.length) :
    s.loadProgram p = none := if_neg (by omega)

/-- Settles O3: the decoder's two refusals, taken at fetch; loading a program decodes nothing. -/
theorem illegalWordsFault : Obligations.IllegalWordsFault := by
  intro w
  refine ⟨decode_eq_error_iff w, fun s hill => ⟨fun hf hh hp => ?_, fun hlen => State.loadProgram_of_le hlen⟩⟩
  obtain ⟨e, he⟩ := (decode_eq_error_iff w).2 hill
  simp only [step_of_illegal hf hh hp he, State.raise, s.glyphPreTick_ip]

/-- Settles O50: the program replaces the old one where it is within the bound. -/
theorem loadProgramRestarts : Obligations.LoadProgramRestarts := fun _ _ =>
  ⟨State.loadProgram_of_le, State.loadProgram_of_lt⟩

end Sys2Proof.Machine
end

section
/-! The assembler's round trip: a printed line is a mnemonic and operand texts without spaces or commas, and the
reader takes it apart again (30_encoding.md R80). -/

namespace Sys2Proof

/-! ### Operand texts -/

/-- A text that a line's separators cannot break: not empty, without spaces and commas. -/
def plainText (t : List Char) : Prop := t ≠ [] ∧ ∀ c ∈ t, c ≠ ' ' ∧ c ≠ ','

theorem plainText_cons {c : Char} {t : List Char} (hc : c ≠ ' ' ∧ c ≠ ',') (ht : plainText t) : plainText (c :: t) :=
  ⟨List.cons_ne_nil c t, List.forall_mem_cons.2 ⟨hc, ht.2⟩⟩

theorem isDigit_of_mem_decimal {n : Nat} {c : Char} (h : c ∈ decimal n) : c.isDigit = true :=
  Nat.isDigit_of_mem_toDigits (by decide) (by decide) h

theorem decimal_plain (n : Nat) : plainText (decimal n) := by
  refine ⟨Nat.toDigits_ne_nil, fun c hc => ?_⟩
  have hd := isDigit_of_mem_decimal hc
  constructor <;> rintro rfl <;> revert hd <;> decide

theorem regText_plain (k : Nat) : plainText (regText k) := plainText_cons (by decide) (decimal_plain k)

theorem Dir.text_plain (d : Dir) : plainText d.text := by cases d <;> simp [plainText, Dir.text]

theorem intText_plain (v : Int) : plainText (intText v) := by
  cases v with
  | ofNat n => exact decimal_plain n
  | negSucc n => exact plainText_cons (by decide) (decimal_plain (n + 1))

theorem Instr.operandTexts_plain (i : Instr) : ∀ t ∈ i.operandTexts, plainText t := by
  cases i <;> simp [Instr.operandTexts, regText_plain, decimal_plain, Dir.text_plain, intText_plain]

theorem Opcode.mnemonic_plain (op : Opcode) : plainText op.mnemonic := by
  cases op <;> simp [plainText, Opcode.mnemonic]

/-! ### Reading numbers back -/

theorem digitValue_of_isDigit {c : Char} (h : c.isDigit = true) : digitValue c = some (c.toNat - '0'.toNat) := by
  rw [Char.isDigit_iff_toNat] at h
  exact if_pos h

theorem readDigits_eq_ofDigitChars {cs : List Char} (h : ∀ c ∈ cs, c.isDigit = true) (acc : Nat) :
    readDigits cs acc = some (Nat.ofDigitChars 10 cs acc) := by
  induction cs generalizing acc with
  | nil => simp [readDigits]
  | cons c cs ih =>
    obtain ⟨hc, hcs⟩ := List.forall_mem_cons.1 h
    rw [readDigits, digitValue_of_isDigit hc, Nat.ofDigitChars_cons]
    exact ih hcs _

theorem readNat_decimal (n : Nat) : readNat (decimal n) = some n := by
  rw [readNat.eq_2 _ (decimal_plain n).1, readDigits_eq_ofDigitChars fun _ => isDigit_of_mem_decimal, decimal,
    Nat.ofDigitChars_toDigits (by decide) (by decide)]

theorem readReg_regText (k : Nat) : readReg (regText k) = some k := readNat_decimal k

theorem readDir_text (d : Dir) : readDir d.text = some d := by cases d <;> rfl

/-- A number's first digit is no sign. -/
theorem readInt_decimal (n : Nat) : readInt (decimal n) = some (n : Int) := by
  have hsign : ∀ c ∈ decimal n, c ≠ '-' ∧ c ≠ '+' := by
    intro c hc
    have hd := isDigit_of_mem_decimal hc
    constructor <;> rintro rfl <;> revert hd <;> decide
  rw [readInt.eq_3, readNat_decimal]
  · rfl
  · intro cs h
    exact (hsign '-' (by simp [h])).1 rfl
  · intro cs h
    exact (hsign '+' (by simp [h])).2 rfl

theorem readInt_intText (v : Int) : readInt (intText v) = some v := by
  cases v with
  | ofNat n => exact readInt_decimal n
  | negSucc n => rw [intText, readInt, readNat_decimal]; rfl

theorem opcodeOfText_mnemonic (op : Opcode) : opcodeOfText op.mnemonic = some op := by cases op <;> decide

/-- R76's operand forms read back. -/
theorem readInstr_operandTexts (i : Instr) : readInstr i.record.op i.operandTexts = some i := by
  cases i <;>
    simp [Instr.record, Instr.operandTexts, readInstr, readThree, readReg_regText, readNat_decimal, readDir_text,
      readInt_intText]

/-! ### Separators -/

/-- Trimming leaves a text alone that neither begins nor ends with a space. -/
theorem trimSpaces_of_ends {t : List Char} (hhead : t.head? ≠ some ' ') (hlast : t.getLast? ≠ some ' ') :
    trimSpaces t = t := by
  have hdrop : ∀ l : List Char, l.head? ≠ some ' ' → l.dropWhile (· == ' ') = l := by
    intro l hl
    cases l with
    | nil => rfl
    | cons c l => exact List.dropWhile_cons_of_neg (by simpa using hl)
  rw [trimSpaces, hdrop t hhead, hdrop _ (by rwa [List.head?_reverse]), List.reverse_reverse]

theorem plainText_ends {t : List Char} (h : plainText t) : t.head? ≠ some ' ' ∧ t.getLast? ≠ some ' ' :=
  ⟨fun e => (h.2 ' ' (List.mem_of_head? e)).1 rfl, fun e => (h.2 ' ' (List.mem_of_getLast? e)).1 rfl⟩

theorem trimSpaces_plain {t : List Char} (h : plainText t) : trimSpaces t = t :=
  trimSpaces_of_ends (plainText_ends h).1 (plainText_ends h).2

theorem trimSpaces_space_cons (t : List Char) : trimSpaces (' ' :: t) = trimSpaces t := rfl

theorem splitCommas_ne_nil (t : List Char) : splitCommas t ≠ [] := by
  cases t with
  | nil => exact List.cons_ne_nil _ _
  | cons c cs =>
    rw [splitCommas]
    split
    · exact List.cons_ne_nil _ _
    · split <;> exact List.cons_ne_nil _ _

theorem splitCommas_comma_cons (t : List Char) : splitCommas (',' :: t) = [] :: splitCommas t := by
  rw [splitCommas]
  cases h : splitCommas t with
  | nil => exact absurd h (splitCommas_ne_nil t)
  | cons p ps => rfl

theorem splitCommas_cons {c : Char} (hc : c ≠ ',') {t p : List Char} {ps : List (List Char)}
    (h : splitCommas t = p :: ps) : splitCommas (c :: t) = (c :: p) :: ps := by
  rw [splitCommas, h]
  exact if_neg hc

/-- A text without commas is one piece, or the beginning of the first piece. -/
theorem splitCommas_append {t : List Char} (ht : ∀ c ∈ t, c ≠ ',') {u p : List Char} {ps : List (List Char)}
    (h : splitCommas u = p :: ps) : splitCommas (t ++ u) = (t ++ p) :: ps := by
  induction t with
  | nil => exact h
  | cons c t ih =>
    obtain ⟨hc, ht⟩ := List.forall_mem_cons.1 ht
    exact splitCommas_cons hc (ih ht)

/-- The pieces of joined operands, without the space after each comma, are the operands. -/
theorem splitCommas_joinOperands {ts : List (List Char)} (hne : ts ≠ []) (h : ∀ t ∈ ts, plainText t) :
    (splitCommas (joinOperands ts)).map trimSpaces = ts := by
  induction ts with
  | nil => exact absurd rfl hne
  | cons t ts ih =>
    obtain ⟨ht, hts⟩ := List.forall_mem_cons.1 h
    have hcomma : ∀ c ∈ t, c ≠ ',' := fun c hc => (ht.2 c hc).2
    cases ts with
    | nil =>
      have hsplit : splitCommas (t ++ []) = [t ++ []] := splitCommas_append hcomma rfl
      simp only [List.append_nil] at hsplit
      simp only [joinOperands, hsplit, List.map_cons, List.map_nil, trimSpaces_plain ht]
    | cons t' ts =>
      have ih := ih (List.cons_ne_nil _ _) hts
      cases hrest : splitCommas (joinOperands (t' :: ts)) with
      | nil => exact absurd hrest (splitCommas_ne_nil _)
      | cons p ps =>
        have hspace : splitCommas (' ' :: joinOperands (t' :: ts)) = (' ' :: p) :: ps :=
          splitCommas_cons (by decide) hrest
        have hsplit := splitCommas_append hcomma ((splitCommas_comma_cons _).trans (congrArg _ hspace))
        rw [hrest, List.map_cons] at ih
        rw [joinOperands, List.append_assoc, List.cons_append, List.cons_append, List.nil_append, hsplit,
          List.append_nil, List.map_cons, List.map_cons, trimSpaces_plain ht, trimSpaces_space_cons, ih]
        exact List.cons_ne_nil _ _

/-- Joined operands begin and end as operands do. -/
theorem joinOperands_ends {ts : List (List Char)} (hne : ts ≠ []) (h : ∀ t ∈ ts, plainText t) :
    joinOperands ts ≠ [] ∧ (joinOperands ts).head? ≠ some ' ' ∧ (joinOperands ts).getLast? ≠ some ' ' := by
  induction ts with
  | nil => exact absurd rfl hne
  | cons t ts ih =>
    obtain ⟨ht, hts⟩ := List.forall_mem_cons.1 h
    obtain ⟨hhead, hlast⟩ := plainText_ends ht
    cases ts with
    | nil => exact ⟨ht.1, hhead, hlast⟩
    | cons t' ts =>
      obtain ⟨hrest, -, hlast'⟩ := ih (List.cons_ne_nil _ _) hts
      rw [joinOperands.eq_3 _ _ (List.cons_ne_nil _ _), List.append_assoc]
      refine ⟨by simp [ht.1], by rwa [List.head?_append_of_ne_nil _ ht.1], ?_⟩
      rwa [← List.append_assoc, List.getLast?_append_of_ne_nil _ hrest]

/-! ### Lines -/

/-- A line of a mnemonic alone. -/
theorem readLine_mnemonic (op : Opcode) : readLine op.mnemonic = readInstr op [] := by cases op <;> rfl

/-- A line of a mnemonic and operands. -/
theorem readLine_operands (op : Opcode) {ts : List (List Char)} (hne : ts ≠ []) (h : ∀ t ∈ ts, plainText t) :
    readLine (op.mnemonic ++ [' '] ++ joinOperands ts) = readInstr op ts := by
  obtain ⟨hj, hjhead, hjlast⟩ := joinOperands_ends hne h
  have hm := op.mnemonic_plain
  have hnospace : ∀ c ∈ op.mnemonic, (c != ' ') = true := fun c hc => by simpa using (hm.2 c hc).1
  have htrim : trimSpaces (op.mnemonic ++ ' ' :: joinOperands ts) = op.mnemonic ++ ' ' :: joinOperands ts := by
    refine trimSpaces_of_ends ?_ ?_
    · rw [List.head?_append_of_ne_nil _ hm.1]; exact (plainText_ends hm).1
    · rw [List.append_cons, List.getLast?_append_of_ne_nil _ hj]; exact hjlast
  have hfirst : (op.mnemonic ++ ' ' :: joinOperands ts).takeWhile (· != ' ') = op.mnemonic := by
    rw [List.takeWhile_append_of_pos hnospace]; simp
  have hrest : (op.mnemonic ++ ' ' :: joinOperands ts).dropWhile (· != ' ') = ' ' :: joinOperands ts := by
    rw [List.dropWhile_append_of_pos hnospace]; simp
  have hempty : (joinOperands ts).isEmpty = false := by simpa using hj
  rw [List.append_assoc, List.singleton_append]
  simp only [readLine, htrim, hfirst, hrest, opcodeOfText_mnemonic, trimSpaces_space_cons,
    trimSpaces_of_ends hjhead hjlast, hempty, splitCommas_joinOperands hne h, Bool.false_eq_true, if_false]

/-- Settles O7: the reader splits the line where the printer joined it, and every operand text reads back. -/
theorem assemblerRoundTrip : Obligations.AssemblerRoundTrip := by
  intro i
  rw [Instr.text]
  split
  · rename_i hnone
    rw [readLine_mnemonic, ← hnone, readInstr_operandTexts]
  · rename_i hsome
    rw [readLine_operands _ hsome i.operandTexts_plain, readInstr_operandTexts]

end Sys2Proof
end

section
/-! Registers as Words, and what the ALU functions do to Words (10_state.md R26, 41_word_alu.md R133 to R138). -/

namespace Sys2Proof.Machine

/-! ### Registers -/

/-- Settles O19: the construction checks put every register inside the rings, and the binding gives different registers
different rings. -/
theorem registersAreDisjointWords : Obligations.RegistersAreDisjointWords := fun s _ _ hw hk hl =>
  ⟨s.holdsWord_regWord hw hk, State.noSharedCell_regs hw hk hl⟩

/-- R139's premise on registers: two registers are the same Word or share no cell. -/
theorem State.regs_eq_or_apart {s : State} (hw : s.wf = true) {k l : Nat} (hk : k < s.config.regCount)
    (hl : l < s.config.regCount) :
    s.regWord k = s.regWord l ∨ s.mem.noSharedCell (s.regWord k) (s.regWord l) := by
  by_cases h : k = l
  · exact .inl (congrArg s.regWord h)
  · exact .inr (State.noSharedCell_regs hw hk hl h)

/-- Settles O20: every ALU function is the one loop behind one width check, and registers have the profile's width. -/
theorem widthMismatchIsChecked : Obligations.WidthMismatchIsChecked := by
  refine ⟨fun a b out m h => ?_, fun src dst m h => ?_, fun s k l => ?_⟩
  · exact ⟨serial_width_error _ m h, serial_width_error _ m h, serial_width_error _ m h, serial_width_error _ m h⟩
  · exact serial_width_error _ m (.inl h)
  · rw [s.regWord_width, s.regWord_width]

/-! ### Bitwise functions and the adder -/

/-- A carry-free bit function writes its value on the old bits at every bit. -/
theorem serial_bitwise {f : BitCell} {op : Bool → Bool → Bool}
    (hf : ∀ (x y : Nat → Bool) (j : Nat), serialBit f x y j = op (x j) (y j))
    {a b out : WordDesc} {m : Memory} (hw : m.wf = true) (ha : m.holdsWord a = true) (hb : m.holdsWord b = true)
    (ho : m.holdsWord out = true) (hwa : a.width = out.width) (hwb : b.width = out.width)
    (hao : out = a ∨ m.noSharedCell out a) (hbo : out = b ∨ m.noSharedCell out b) :
    ∃ m' c, serial f a b out m = .done m' c ∧ m.sameOutside m' out ∧
      ∀ j, j < out.width → m'.wordBit out j = op (m.wordBit a j) (m.wordBit b j) := by
  obtain ⟨m', hrun, hbits, hframe⟩ := serial_spec f hw ha hb ho hwa hwb hao hbo
  exact ⟨m', _, hrun, hframe, fun j hj => (hbits j hj).trans (hf _ _ j)⟩

/-- Settles O21: one loop, with the three bit functions. -/
theorem bitwiseFunctionsWriteEveryBit : Obligations.BitwiseFunctionsWriteEveryBit := by
  intro m a b out hw ha hb ho hwa hwb hao hbo
  exact ⟨serial_bitwise serialBit_xor hw ha hb ho hwa hwb hao hbo,
    serial_bitwise serialBit_and hw ha hb ho hwa hwb hao hbo,
    serial_bitwise serialBit_or hw ha hb ho hwa hwb hao hbo⟩

/-- R138 on numbers: the bits written are the sum modulo `2^n`. -/
theorem natOfBits_serialBit_add (x y : Nat → Bool) (n : Nat) :
    natOfBits (serialBit addCell x y) n = (natOfBits x n + natOfBits y n) % 2 ^ n := by
  rw [← natOfBits_addCell, Nat.add_mul_mod_self_right, Nat.mod_eq_of_lt (natOfBits_lt _ n)]

/-- R138 on numbers: the carry out says that the sum reached `2^n`. -/
theorem carryAfter_add_iff (x y : Nat → Bool) (n : Nat) :
    carryAfter addCell x y 0 false n = true ↔ 2 ^ n ≤ natOfBits x n + natOfBits y n := by
  have hlt := natOfBits_lt (serialBit addCell x y) n
  rw [← natOfBits_addCell]
  cases carryAfter addCell x y 0 false n with
  | false => simpa using hlt
  | true => simp

/-- Settles O22: the loop's bits and carry are those of the sum. -/
theorem rippleAddIsAddition : Obligations.RippleAddIsAddition := by
  intro m a b out hw ha hb ho hwa hwb hao hbo
  obtain ⟨m', hrun, hbits, hframe⟩ := serial_spec addCell hw ha hb ho hwa hwb hao hbo
  simp only [Memory.wordValue, hwa, hwb]
  exact ⟨m', _, hrun, (natOfBits_congr hbits).trans (natOfBits_serialBit_add _ _ _), carryAfter_add_iff _ _ _, hframe⟩

end Sys2Proof.Machine
end

section
/-! The instructions: each is a dispatch of its operand check and its action (43_cpu_instructions.md R170 to R179). -/

namespace Sys2Proof.Machine

/-! ### Dispatch -/

theorem exec_of_action {i : Instr} {s t : State} (hc : checkOperands i s = true) (ha : action i s = .ok t) :
    exec i s = .next t.retire := by
  rw [exec_eq_dispatch, State.dispatch_ok hc ha]

/-- An instruction whose action changes the Machine alone. -/
theorem exec_of_setMem {i : Instr} {s : State} {m : Memory} (hc : checkOperands i s = true)
    (ha : action i s = .ok (s.setMem m)) : exec i s = .next { s with ip := s.ip + 1, mem := m.rotateAll 1 } :=
  exec_of_action hc ha

theorem exec_of_bad_operand {i : Instr} {s : State} (hc : checkOperands i s = false) :
    exec i s = .next (s.raise .outOfRange) := by
  rw [exec_eq_dispatch, State.dispatch_fail _ hc]

theorem State.regOk_iff {s : State} {k : Nat} : s.regOk k = true ↔ k < s.config.regCount := decide_eq_true_iff

theorem checkOperands_mov {s : State} {a b : Nat} :
    checkOperands (.mov a b) s = true ↔ a < s.config.regCount ∧ b < s.config.regCount := by
  simp [checkOperands, State.regOk_iff]

/-- The check of the three-register forms. -/
theorem State.regOk_three_iff {s : State} {a b c : Nat} : (s.regOk a && s.regOk b && s.regOk c) = true ↔
    a < s.config.regCount ∧ b < s.config.regCount ∧ c < s.config.regCount := by
  simp [State.regOk_iff, and_assoc]

theorem checkOperands_shiftRing {s : State} {a : Nat} {dir : Dir} {imm : Int} :
    checkOperands (.shiftRing a dir imm) s = true ↔ a < s.mem.ringCount := decide_eq_true_iff

/-- Settles O32: a failed operand check is taken on the state the dispatch began with. -/
theorem indexOutOfBoundFaults : Obligations.IndexOutOfBoundFaults := by
  intro s a b c dir imm
  refine ⟨fun h => ?_, fun h => ?_, fun h => ?_, rfl, rfl, rfl⟩
  · exact exec_of_bad_operand (Bool.eq_false_iff.2 (mt checkOperands_mov.1 h))
  · have hc : (s.regOk a && s.regOk b && s.regOk c) = false := Bool.eq_false_iff.2 (mt State.regOk_three_iff.1 h)
    exact ⟨exec_of_bad_operand hc, exec_of_bad_operand hc, exec_of_bad_operand hc, exec_of_bad_operand hc⟩
  · exact exec_of_bad_operand (Bool.eq_false_iff.2 (mt checkOperands_shiftRing.1 h))

/-! ### The end tick -/

theorem State.gearCount_pos {s : State} (hw : s.wf = true) : 0 < s.mem.gearCount :=
  (s.mem.wf_iff.1 (s.wf_iff.1 hw).1).1

/-- Settles O23: NOP's action leaves the state, which is then retired. -/
theorem nopOnlyTicks : Obligations.NopOnlyTicks := fun _ hw =>
  ⟨_, exec_of_action rfl rfl, Memory.turnedAll_rotateAll (State.gearCount_pos hw) 1⟩

/-- Settles O31: HALT's action sets `halted`, and the state is then retired. -/
theorem haltSetsHaltedAndTicks : Obligations.HaltSetsHaltedAndTicks := fun s hw =>
  ⟨_, exec_of_action (t := s.setHalted) rfl rfl, Memory.turnedAll_rotateAll (State.gearCount_pos hw) 1⟩

/-! ### Instructions that write a register -/

/-- The ALU of an instruction on registers of the bank: it completes, writes every bit of the output register and
changes no other cell. -/
theorem State.withAlu_ok {s : State} (hw : s.wf = true) (f : BitCell) {a b c : Nat} (ha : a < s.config.regCount)
    (hb : b < s.config.regCount) (hc : c < s.config.regCount) :
    ∃ m, s.withAlu (serial f (s.regWord b) (s.regWord c) (s.regWord a) s.mem) = .ok (s.setMem m) ∧
      (∀ j, j < profileWidth s.config.profile →
        m.wordBit (s.regWord a) j = serialBit f (s.regBit b) (s.regBit c) j) ∧
      s.mem.sameOutside m (s.regWord a) := by
  obtain ⟨m, hrun, hbits, hframe⟩ := serial_spec f (s.wf_iff.1 hw).1 (s.holdsWord_regWord hw hb)
    (s.holdsWord_regWord hw hc) (s.holdsWord_regWord hw ha) (by simp) (by simp) (State.regs_eq_or_apart hw ha hb)
    (State.regs_eq_or_apart hw ha hc)
  rw [s.regWord_width] at hbits
  exact ⟨m, by rw [hrun, State.withAlu], hbits, hframe⟩

/-- The whole instruction: the ALU, then the end tick. -/
theorem exec_writes_register {s : State} (hw : s.wf = true) {i : Instr} {f : BitCell} {a b c : Nat}
    (ha : a < s.config.regCount) (hb : b < s.config.regCount) (hc : c < s.config.regCount)
    (hcheck : checkOperands i s = true)
    (haction : action i s = s.withAlu (serial f (s.regWord b) (s.regWord c) (s.regWord a) s.mem)) :
    ∃ m m', exec i s = .next { s with ip := s.ip + 1, mem := m' } ∧ m.turnedAll m' 1 ∧
      (∀ j, j < profileWidth s.config.profile →
        m.wordBit (s.regWord a) j = serialBit f (s.regBit b) (s.regBit c) j) ∧
      s.mem.sameOutside m (s.regWord a) := by
  obtain ⟨m, halu, hbits, hframe⟩ := State.withAlu_ok hw f ha hb hc
  have hg : 0 < m.gearCount := Memory.shape_gearCount hframe.1 ▸ State.gearCount_pos hw
  exact ⟨m, _, exec_of_setMem hcheck (haction.trans halu), Memory.turnedAll_rotateAll hg 1, hbits, hframe⟩

/-- A Word whose bits are given has the value of those bits. -/
theorem Memory.wordValue_regWord {s : State} {m : Memory} {a : Nat} {f : Nat → Bool}
    (h : ∀ j, j < profileWidth s.config.profile → m.wordBit (s.regWord a) j = f j) :
    m.wordValue (s.regWord a) = natOfBits f (profileWidth s.config.profile) := by
  rw [Memory.wordValue, s.regWord_width, natOfBits_congr h]

theorem State.regValue_eq (s : State) (k : Nat) :
    s.regValue k = natOfBits (s.regBit k) (profileWidth s.config.profile) :=
  Memory.wordValue_regWord fun _ _ => rfl

/-- The contents of a ring's cells are its cells, as long as it has them. -/
theorem Ring.cells_eq {r r' : Ring} (hlen : r'.cells.length = r.cells.length) (h : ∀ p, r'.cell p = r.cell p) :
    r'.cells = r.cells := by
  refine List.ext_getElem hlen fun p hp hp' => ?_
  have := h p
  rwa [Ring.cell, Ring.cell, List.getD_eq_getElem _ _ hp, List.getD_eq_getElem _ _ hp'] at this

/-- The shape and the contents of the cells are the whole Machine. -/
theorem Memory.eq_of_shape_of_cell {m m' : Memory} (hshape : m'.shape = m.shape)
    (hcell : ∀ ring p, m'.cell ring p = m.cell ring p) : m' = m := by
  have hrings : m'.rings = m.rings := by
    refine List.ext_getElem (Memory.shape_ringCount hshape) fun i hi hi' => ?_
    have hr' := List.getElem?_eq_getElem hi
    obtain ⟨r, hr, hoff, hdir, hlen⟩ := Memory.shape_ring hshape hr'
    have hcells : m'.rings[i].cells = r.cells :=
      Ring.cells_eq hlen fun p => by simpa only [Memory.cell, hr', hr] using hcell i p
    obtain ⟨_, rfl⟩ := List.getElem?_eq_some_iff.1 hr
    exact Ring.mk.injEq .. ▸ ⟨hoff, hdir, hcells⟩
  obtain ⟨g, rings⟩ := m
  obtain ⟨g', rings'⟩ := m'
  exact Memory.mk.injEq .. ▸ ⟨Memory.shape_gearCount hshape, hrings⟩

/-- A Machine that is the same outside a Word and in every bit of the Word is the same. -/
theorem Memory.eq_of_sameOutside {m m' : Memory} {w : WordDesc} (h : m.sameOutside m' w)
    (hbits : ∀ j, j < w.width → m'.wordBit w j = m.wordBit w j) : m' = m := by
  obtain ⟨hshape, hout⟩ := h
  refine Memory.eq_of_shape_of_cell hshape fun ring p => ?_
  by_cases hb : m.backs w ring p
  · obtain ⟨j, hj, hcell⟩ := hb
    have := hbits j hj
    rwa [Memory.wordBit_eq_cell hcell,
      Memory.wordBit_eq_cell ((Memory.wordCell_congr hshape w j).trans hcell)] at this
  · exact hout ring p hb

/-- Settles O24: the copy is the bit function that keeps its first input. -/
theorem movCopiesARegister : Obligations.MovCopiesARegister := by
  intro s a b hw ha hb
  obtain ⟨m, m', hexec, htick, hbits, hframe⟩ :=
    exec_writes_register (i := .mov a b) (f := copyCell) hw ha hb hb (checkOperands_mov.2 ⟨ha, hb⟩) rfl
  simp only [serialBit_copy] at hbits
  refine ⟨m, m', hexec, htick, ?_, hbits, hframe, ?_⟩
  · rw [s.regValue_eq, Memory.wordValue_regWord hbits]
  · rintro rfl
    exact Memory.eq_of_sameOutside hframe (by rw [s.regWord_width]; exact hbits)

theorem natOfBits_false (n : Nat) : natOfBits (fun _ => false) n = 0 := by
  induction n with
  | zero => rfl
  | succ n ih => simp [natOfBits, ih]

/-- Settles O25, from the XOR of the old bits. -/
theorem xorWritesItsRegister : Obligations.XorWritesItsRegister := by
  intro s a b c hw ha hb hc
  obtain ⟨m, m', hexec, htick, hbits, hframe⟩ :=
    exec_writes_register (i := .xor a b c) (f := xorCell) hw ha hb hc (State.regOk_three_iff.2 ⟨ha, hb, hc⟩) rfl
  simp only [serialBit_xor] at hbits
  refine ⟨m, m', hexec, htick, hbits, ?_, hframe⟩
  rintro rfl
  simp only [Bool.xor_self] at hbits
  rw [Memory.wordValue_regWord hbits, natOfBits_false]

/-- Settles O26, from the AND of the old bits. -/
theorem andWritesItsRegister : Obligations.AndWritesItsRegister := by
  intro s a b c hw ha hb hc
  obtain ⟨m, m', hexec, htick, hbits, hframe⟩ :=
    exec_writes_register (i := .and a b c) (f := andCell) hw ha hb hc (State.regOk_three_iff.2 ⟨ha, hb, hc⟩) rfl
  simp only [serialBit_and] at hbits
  refine ⟨m, m', hexec, htick, hbits, ?_, hframe⟩
  rintro rfl
  simp only [Bool.and_self] at hbits
  rw [Memory.wordValue_regWord hbits, s.regValue_eq]

/-- Settles O27, from the OR of the old bits. -/
theorem orWritesItsRegister : Obligations.OrWritesItsRegister := by
  intro s a b c hw ha hb hc
  obtain ⟨m, m', hexec, htick, hbits, hframe⟩ :=
    exec_writes_register (i := .or a b c) (f := orCell) hw ha hb hc (State.regOk_three_iff.2 ⟨ha, hb, hc⟩) rfl
  simp only [serialBit_or] at hbits
  refine ⟨m, m', hexec, htick, hbits, ?_, hframe⟩
  rintro rfl
  simp only [Bool.or_self] at hbits
  rw [Memory.wordValue_regWord hbits, s.regValue_eq]

/-- Settles O28: the adder's bits are those of the sum modulo `2^W`. -/
theorem addWritesTheSum : Obligations.AddWritesTheSum := by
  intro s a b c hw ha hb hc
  obtain ⟨m, m', hexec, htick, hbits, hframe⟩ :=
    exec_writes_register (i := .add a b c) (f := addCell) hw ha hb hc (State.regOk_three_iff.2 ⟨ha, hb, hc⟩) rfl
  refine ⟨m, m', hexec, htick, ?_, hframe⟩
  rw [Memory.wordValue_regWord hbits, natOfBits_serialBit_add, s.regValue_eq, s.regValue_eq]

/-! ### Instructions that turn rings -/

/-- Two turns of a ring in one direction add up. -/
theorem Ring.rotate_rotate {g : Nat} (hg : 0 < g) (d : Dir) (j k : Int) (r : Ring) :
    (r.rotate g d j).rotate g d k = r.rotate g d (j + k) := by
  rw [Ring.rotate_eq hg, Ring.rotate_eq hg d (j + k), Ring.rotate_offset hg, turned_turned hg, Ring.rotate_cells]

/-- Two global ticks add up. -/
theorem Memory.rotateAll_rotateAll {m : Memory} (hg : 0 < m.gearCount) (j k : Int) :
    (m.rotateAll j).rotateAll k = m.rotateAll (j + k) := by
  simp only [Memory.rotateAll, List.map_map, Function.comp_def, Ring.rotate_dir, Ring.rotate_rotate hg]

/-- A global tick by whole turns is the tick by 0. -/
theorem Memory.rotateAll_of_dvd {m : Memory} (hw : m.wf = true) {k : Int} (hk : (m.gearCount : Int) ∣ k) :
    m.rotateAll k = m := by
  obtain ⟨hg, -, hrings⟩ := m.wf_iff.1 hw
  calc m.rotateAll k = m.rotateAll 0 := by
        refine congrArg (Memory.mk m.gearCount) (List.map_congr_left fun r hr => ?_)
        obtain ⟨i, hi⟩ := List.mem_iff_getElem?.1 hr
        have ho := (hrings i r hi).2
        rw [Ring.rotate_eq hg, Ring.rotate_eq hg, turned_of_dvd ho hk, turned_of_dvd ho (dvd_zero _)]
    _ = m := Memory.rotateAll_zero hw

/-- Settles O30: the instruction's tick and the end tick are one tick by `imm + 1`. -/
theorem tickAllTurnsEveryRing : Obligations.TickAllTurnsEveryRing := by
  intro s imm hw
  have hg := State.gearCount_pos hw
  refine ⟨_, exec_of_setMem rfl rfl, ?_, fun hk => ?_⟩ <;>
    rw [Memory.rotateAll_rotateAll hg]
  · exact Memory.turnedAll_rotateAll hg _
  · exact Memory.rotateAll_of_dvd (s.wf_iff.1 hw).1 hk

/-- R176's action on a ring of the Machine. -/
theorem action_shiftRing {s : State} {a : Nat} {r : Ring} (hr : s.mem.rings[a]? = some r) (dir : Dir) (imm : Int) :
    action (.shiftRing a dir imm) s = .ok (s.setMem (s.mem.setRing a (r.rotate s.mem.gearCount dir imm))) := by
  simp only [action, Memory.rotate_ok hr]

/-- Settles O29: ring `a` takes its own turn and the end tick in the direction it has just recorded. -/
theorem shiftRingTurnsItsRing : Obligations.ShiftRingTurnsItsRing := by
  intro s a dir imm r hw hr
  have hg := State.gearCount_pos hw
  have ha := Memory.lt_ringCount hr
  refine ⟨_, exec_of_setMem (checkOperands_shiftRing.2 ha) (action_shiftRing hr dir imm), rfl, ?_, ?_,
    fun j x hj hx => ?_⟩
  · rw [Memory.rotateAll_ringCount, Memory.setRing_ringCount]
  · rw [Memory.rotateAll_rings, s.mem.setRing_rings ha, if_pos rfl, Option.map_some,
      Ring.rotate_dir, ← Ring.rotate_eq hg, ← Ring.rotate_rotate hg]
    rfl
  · rw [Memory.rotateAll_rings, s.mem.setRing_rings ha, if_neg hj.symm, hx, Option.map_some,
      ← Ring.rotate_eq hg]
    rfl

end Sys2Proof.Machine
end

section
/-! The substrate laws and the glyph's ranges (40_ring_machine.md R102, R106, R111 to R115). -/

namespace Sys2Proof.Machine

/-! ### Turning back -/

/-- A Right turn is a Left turn by as many places back. -/
theorem turned_right_eq_left_neg (g o : Nat) (k : Int) : turned g .right o k = turned g .left o (-k) := by
  simp only [turned, dirSign, neg_one_mul, one_mul]

/-- R114 (b): a Left turn undoes a Right turn. -/
theorem turned_left_right {g o : Nat} (ho : o < g) (k : Int) : turned g .left (turned g .right o k) k = o := by
  rw [turned_right_eq_left_neg, turned_turned (by omega), neg_add_cancel, turned_of_dvd ho (dvd_zero _)]

/-- R114 (a): no sequence of rotations takes an offset out of its range. -/
theorem Ring.foldl_rotate_offset_lt {g : Nat} (l : List (Dir × Int)) {r : Ring} (ho : r.offset < g) :
    (l.foldl (fun x q => x.rotate g q.1 q.2) r).offset < g := by
  induction l generalizing r with
  | nil => exact ho
  | cons q l ih =>
    have hg : 0 < g := by omega
    exact ih (by rw [Ring.rotate_offset hg]; exact turned_lt hg _ _ _)

/-- R114 (c): every cell has a logical index. -/
theorem Ring.exists_logical {g : Nat} {r : Ring} (ho : r.offset < g) {p : Nat} (hp : p < g) :
    ∃ i : Nat, i < g ∧ r.logicalToPhysical g (i : Int) = .ok p := by
  have hg : 0 < g := by omega
  have hi : (p + (g - r.offset)) % g < g := Nat.mod_lt _ hg
  refine ⟨(p + (g - r.offset)) % g, hi, ?_⟩
  rw [Ring.logicalToPhysical_natCast, if_pos hi, Nat.mod_add_mod, Nat.add_assoc, Nat.sub_add_cancel ho.le,
    Nat.add_mod_right, Nat.mod_eq_of_lt hp]

/-- Settles O10, law by law. -/
theorem substrateLaws : Obligations.SubstrateLaws := by
  intro g r hg ho
  refine ⟨fun l => Ring.foldl_rotate_offset_lt l ho, fun k => ⟨?_, Ring.rotate_dir _ _ _ _⟩, fun p hp => ?_,
    fun i hi => ?_⟩
  · rw [Ring.rotate_offset hg, Ring.rotate_offset hg, turned_left_right ho]
  · obtain ⟨i, hi, hip⟩ := Ring.exists_logical ho hp
    exact ⟨i, hi, hip, fun j hj => Ring.logicalToPhysical_inj hj hip⟩
  · exact ⟨_, Nat.mod_lt _ hg, by rw [Ring.logicalToPhysical_natCast, if_pos hi]⟩

/-! ### Reading after a turn -/

/-- The cell a logical index names after a turn is the one the turned index named before. -/
theorem add_turned_mod {g : Nat} (hg : 0 < g) (d : Dir) (o j : Nat) (k : Int) :
    (j + turned g d o k) % g = ((((j : Int) + dirSign d * k) % g).toNat + o) % g := by
  have ho := Int.emod_nonneg ((o : Int) + dirSign d * k) (show (g : Int) ≠ 0 by omega)
  have hj := Int.emod_nonneg ((j : Int) + dirSign d * k) (show (g : Int) ≠ 0 by omega)
  zify
  rw [turned, Int.toNat_of_nonneg ho, Int.toNat_of_nonneg hj, Int.add_emod_emod, Int.emod_add_emod]
  congr 1; ring

/-- R115: after a turn an index reads what the turned index read before. -/
theorem Ring.getBit_rotate {g j : Nat} (hj : j < g) (d : Dir) (k : Int) (r : Ring) :
    (r.rotate g d k).getBit g j = r.getBit g (((j : Int) + dirSign d * k) % g) := by
  have hg : 0 < g := by omega
  have h0 := Int.emod_nonneg ((j : Int) + dirSign d * k) (show (g : Int) ≠ 0 by omega)
  have hlt := Int.emod_lt_of_pos ((j : Int) + dirSign d * k) (show (0 : Int) < g by omega)
  have hphys : (r.rotate g d k).logicalToPhysical g (j : Int) =
      r.logicalToPhysical g (((j : Int) + dirSign d * k) % g) := by
    rw [Ring.logicalToPhysical_natCast, if_pos hj, Ring.rotate_offset hg, add_turned_mod hg,
      r.logicalToPhysical_inside h0 hlt]
  simp only [Ring.getBit, hphys, Ring.cell, Ring.rotate_cells]

/-- Settles O11, direction by direction. -/
theorem rotationMovesTheView : Obligations.RotationMovesTheView := by
  intro g r s j _ hj
  refine ⟨?_, ?_, Ring.rotate_cells .., Ring.rotate_cells ..⟩
  · rw [Ring.getBit_rotate hj, dirSign, one_mul]
  · rw [Ring.getBit_rotate hj, dirSign, neg_one_mul, ← sub_eq_add_neg]

/-- Settles O14: outside the rings `locate` names no cell, and every bit access goes through `locate`. -/
theorem accessOutsideTheRingsFails : Obligations.AccessOutsideTheRingsFails := by
  intro m ring i v _ hout
  have hl : m.locate ring i = .error .outOfRange := Memory.locate_outside (by omega)
  exact ⟨by rw [Memory.getBit_eq_cell, hl], Memory.setBit_error hl v, hl⟩

/-! ### The glyph -/

/-- R111: on an offset in its range the clamp does not act. -/
theorem glyph_eq {offset gears : Nat} (h : offset < gears) : glyph offset gears = offset * 13 / gears := by
  have hlt : offset * 13 / gears < 13 := Nat.div_lt_of_lt_mul (by omega)
  rw [glyph, glyphCount, Nat.mod_eq_of_lt h, Nat.zero_max, Nat.min_eq_right (Nat.le_of_lt_succ hlt)]

/-- Settles O17: the quotient is `g` between two multiples of `G`, and `ceil(n/13) <= offset` says `n <= 13*offset`. -/
theorem glyphOffsetRanges : Obligations.GlyphOffsetRanges := by
  intro gears offset g h
  refine ⟨?_, glyph_eq h, Nat.min_le_left _ _⟩
  rw [glyph_eq h, Nat.div_eq_iff (by omega), Nat.add_mul, one_mul]
  omega

end Sys2Proof.Machine
end

section
/-! The rotation hazards: what a register reads after its rings have turned (70_reset_and_hazards.md R246 to R249). -/

namespace Sys2Proof.Machine

/-- R115 on the Machine: after a global tick a place reads what the turned place read before. -/
theorem Memory.getBit_rotateAll {m : Memory} {ring i : Nat} {r : Ring} (hr : m.rings[ring]? = some r)
    (hi : i < m.gearCount) (n : Int) :
    (m.rotateAll n).getBit ring i = m.getBit ring (((i : Int) + dirSign r.dir * n) % m.gearCount) := by
  have hr' : (m.rotateAll n).rings[ring]? = some (r.rotate m.gearCount r.dir n) := by
    rw [m.rotateAll_rings, hr, Option.map_some]
  simp only [Memory.getBit, Memory.ringAt_ok hr, Memory.ringAt_ok hr', m.rotateAll_gearCount, Ring.getBit_rotate hi]

/-- R132 through the place of a bit in range. -/
theorem Memory.wordGet_eq_getBit (m : Memory) {w : WordDesc} {j : Nat} (hj : j < w.width) :
    m.wordGet w j = m.getBit (wordIndex w j).1 (wordIndex w j).2 := by
  simp only [Memory.wordGet, w.resolveBit_natCast, if_pos hj]

/-- A bit of a Word after a global tick is the bit of the Word at the turned place, where the Word has that place. -/
theorem Memory.wordBit_rotateAll {m : Memory} {w : WordDesc} {ring i i' j j' : Nat} {r : Ring} {n : Int}
    (hr : m.rings[ring]? = some r) (hi : i < m.gearCount) (hj : j < w.width) (hj' : j' < w.width)
    (hplace : wordIndex w j = (ring, i)) (hplace' : wordIndex w j' = (ring, i'))
    (hturn : ((i : Int) + dirSign r.dir * n) % m.gearCount = i') :
    (m.rotateAll n).wordBit w j = m.wordBit w j' := by
  simp only [Memory.wordBit, Memory.wordGet_eq_getBit _ hj, Memory.wordGet_eq_getBit _ hj', hplace, hplace',
    Memory.getBit_rotateAll hr hi, hturn]

/-- An index turned around a ring is an index of the ring. -/
theorem natCast_toNat_emod {g : Nat} (hg : 0 < g) (x : Int) :
    (x % (g : Int)).toNat < g ∧ x % (g : Int) = ((x % (g : Int)).toNat : Int) :=
  ⟨normalizeSteps_lt hg x, (natCast_normalizeSteps hg x).symm⟩

/-- Settles O57: in these profiles bit `j` of register `k` is logical index `j` of ring `k`, for every `j` below `G`. -/
theorem fullRingTurnRotatesTheValue : Obligations.FullRingTurnRotatesTheValue := by
  intro s k j r n hw _ hfull hr hj
  obtain ⟨hlt, hturn⟩ := natCast_toNat_emod (State.gearCount_pos hw) ((j : Int) + dirSign r.dir * n)
  have hlegal := (s.wf_iff.1 hw).2.1
  have hword : (s.regWord k).width = s.mem.gearCount ∧ ∀ i, wordIndex (s.regWord k) i = (k, i) := by
    rcases hfull with hp | ⟨hp, hbase, hg⟩
    · simp only [configLegal, hp, Bool.and_eq_true, decide_eq_true_eq] at hlegal
      simp only [State.regWord, hp]
      exact ⟨hlegal.2.1.symm, fun _ => rfl⟩
    · simp only [State.regWord, hp, hbase]
      exact ⟨hg.symm, fun i => by rw [wordIndex, Nat.zero_add]⟩
  obtain ⟨hwidth, hplace⟩ := hword
  exact Memory.wordBit_rotateAll hr hj (hwidth ▸ hj) (hwidth ▸ hlt) (hplace j) (hplace _) hturn

/-- Settles O58: the low half is logical indices 0 to 359 of ring `2k`, the high half those of ring `2k + 1`. -/
theorem w720HalvesTurnApart : Obligations.W720HalvesTurnApart := by
  intro s k j lo hi n hw _ hp hlo hhi hj
  have hg : s.mem.gearCount = 360 := by
    have hlegal := (s.wf_iff.1 hw).2.1
    simp only [configLegal, hp, Bool.and_eq_true, decide_eq_true_eq] at hlegal
    exact hlegal.2.1
  have hword : s.regWord k = .w720 (2 * k) (2 * k + 1) := by simp only [State.regWord, hp]
  have hhigh : ∀ i : Nat, i < 360 → wordIndex (.w720 (2 * k) (2 * k + 1)) (360 + i) = (2 * k + 1, i) := fun i _ => by
    rw [wordIndex_w720_hi (by omega), Nat.add_sub_cancel_left]
  simp only [State.regBit, State.setMem_mem, State.setMem_regWord, hword]
  constructor
  · obtain ⟨hlt, hturn⟩ := natCast_toNat_emod (show 0 < 360 by omega) ((j : Int) + dirSign lo.dir * n)
    exact Memory.wordBit_rotateAll hlo (by omega) (show j < 720 by omega) (show _ < 720 by omega)
      (wordIndex_w720_lo hj) (wordIndex_w720_lo hlt) (by rw [hg]; exact hturn)
  · obtain ⟨hlt, hturn⟩ := natCast_toNat_emod (show 0 < 360 by omega) ((j : Int) + dirSign hi.dir * n)
    exact Memory.wordBit_rotateAll hhi (by omega) (show 360 + j < 720 by omega) (show _ < 720 by omega)
      (hhigh j hj) (hhigh _ hlt) (by rw [hg]; exact hturn)

/-- Which Words a Machine holds depends on its two counts alone. -/
theorem Memory.holdsWord_of_counts {m m' : Memory} (hg : m'.gearCount = m.gearCount)
    (hn : m'.ringCount = m.ringCount) (w : WordDesc) : m'.holdsWord w = m.holdsWord w := by
  cases w <;> simp only [Memory.holdsWord, hg, hn]

/-- Settles O59: bit `j` of the register is logical index `W64_BASE + j` of its ring. -/
theorem windowedW64ReadsItsRing : Obligations.WindowedW64ReadsItsRing := by
  intro s k j r n hw hk hp hr hdir hj
  have hword : s.regWord k = .w64 k s.config.w64Base := by simp only [State.regWord, hp]
  have hheld := s.holdsWord_regWord hw hk
  rw [hword] at hheld
  have hi : s.config.w64Base + j < s.mem.gearCount := (Memory.wordIndex_bounds hheld (j := j) hj).2
  have hturn := Memory.getBit_rotateAll hr hi n
  rw [hdir, dirSign, one_mul] at hturn
  have hread : (s.mem.rotateAll n).wordGet (.w64 k s.config.w64Base) j =
      .ok ((s.mem.rotateAll n).wordBit (.w64 k s.config.w64Base) j) :=
    Memory.wordGet_ok ((Memory.holdsWord_of_counts (s.mem.rotateAll_gearCount n)
      (s.mem.rotateAll_ringCount n) _).trans hheld) hj
  rw [State.regBit, State.setMem_regWord, State.setMem_mem, hword, ← hread, ← hturn]
  exact ((s.mem.rotateAll n).wordGet_eq_getBit (w := .w64 k s.config.w64Base) hj).symm

/-- Global ticks one after another are one tick by their sum. -/
theorem Memory.foldl_rotateAll (l : List Int) {m : Memory} (hw : m.wf = true) :
    l.foldl Memory.rotateAll m = m.rotateAll l.sum := by
  induction l generalizing m with
  | nil => exact (Memory.rotateAll_zero hw).symm
  | cons k l ih =>
    rw [List.foldl_cons, ih (Memory.rotateAll_keeps_wf k hw), Memory.rotateAll_rotateAll (m.wf_iff.1 hw).1,
      List.sum_cons]

/-- Settles O60: the ticks are one tick by whole turns. -/
theorem wholeTurnsRestoreTheRings : Obligations.WholeTurnsRestoreTheRings := by
  intro m l hw hdvd
  rw [Memory.foldl_rotateAll l hw, Memory.rotateAll_of_dvd hw hdvd]

end Sys2Proof.Machine
end

section
/-! What the actions and the glyph hook do, for every instruction (43_cpu_instructions.md, 42_cpu_step.md R154). -/

namespace Sys2Proof.Machine

/-! ### What no step changes -/

/-- How many cells each ring has. -/
def Memory.cellCounts (m : Memory) : List Nat := m.rings.map fun r => r.cells.length

@[simp] theorem Memory.rotateAll_cellCounts (m : Memory) (k : Int) : (m.rotateAll k).cellCounts = m.cellCounts := by
  simp [Memory.cellCounts, Memory.rotateAll]

theorem Memory.shape_cellCounts {m m' : Memory} (h : m'.shape = m.shape) : m'.cellCounts = m.cellCounts := by
  simpa [Memory.shape, Memory.cellCounts, Function.comp_def] using congrArg (fun x => x.2.map fun y => y.2.2) h

theorem Memory.setRing_cellCounts {m : Memory} {i : Nat} {r r' : Ring} (hr : m.rings[i]? = some r)
    (hlen : r'.cells.length = r.cells.length) : (m.setRing i r').cellCounts = m.cellCounts := by
  refine List.ext_getElem? fun j => ?_
  rw [Memory.cellCounts, Memory.cellCounts, List.getElem?_map, List.getElem?_map,
    m.setRing_rings (Memory.lt_ringCount hr)]
  split
  · rename_i hij
    rw [← hij, hr, Option.map_some, Option.map_some, hlen]
  · rfl

/-- `t` has the program, the configuration, `G` and the rings' cell counts of `s`. -/
def State.sameStatic (s t : State) : Prop :=
  t.prog = s.prog ∧ t.config = s.config ∧ t.mem.gearCount = s.mem.gearCount ∧ t.mem.cellCounts = s.mem.cellCounts

theorem State.sameStatic.trans {s t u : State} (h : s.sameStatic t) (h' : t.sameStatic u) : s.sameStatic u := by
  obtain ⟨hp, hc, hg, hn⟩ := h
  obtain ⟨hp', hc', hg', hn'⟩ := h'
  exact ⟨hp'.trans hp, hc'.trans hc, hg'.trans hg, hn'.trans hn⟩

theorem State.sameStatic_rotateAll (s : State) (k : Int) : s.sameStatic (s.setMem (s.mem.rotateAll k)) :=
  ⟨rfl, rfl, rfl, s.mem.rotateAll_cellCounts k⟩

theorem State.sameStatic_retire (s : State) : s.sameStatic s.retire :=
  ⟨rfl, rfl, rfl, s.mem.rotateAll_cellCounts 1⟩

theorem State.sameStatic_glyphPreTick (s : State) : s.sameStatic s.glyphPreTick := by
  obtain h | ⟨-, -, h⟩ := s.glyphPreTick_cases <;> rw [h]
  · exact ⟨rfl, rfl, rfl, rfl⟩
  · exact s.sameStatic_rotateAll 1

/-! ### Actions -/

/-- What an action that succeeds leaves, on any core. -/
inductive Acted (s : State) : Instr → State → Prop
  | nop : Acted s .nop s
  | halt : Acted s .halt s.setHalted
  | tickAll (imm : Int) : Acted s (.tickAll imm) (s.setMem (s.mem.rotateAll imm))
  | shiftRing {a : Nat} {r : Ring} (hr : s.mem.rings[a]? = some r) (dir : Dir) (imm : Int) :
    Acted s (.shiftRing a dir imm) (s.setMem (s.mem.setRing a (r.rotate s.mem.gearCount dir imm)))
  | register {i : Instr} {a : Nat} {m : Memory} (hdest : destRegister i = some a) (hshape : m.shape = s.mem.shape) :
    Acted s i (s.setMem m)

theorem acted_of_action {i : Instr} {s t : State} (h : action i s = .ok t) : Acted s i t := by
  have alu : ∀ {f : BitCell} {x y out : WordDesc} {a : Nat}, destRegister i = some a →
      s.withAlu (serial f x y out s.mem) = .ok t → Acted s i t := by
    intro f x y out a hdest h
    obtain ⟨m, rfl, hshape⟩ := State.withAlu_serial h
    exact .register hdest hshape
  cases i with
  | nop => cases h; exact .nop
  | mov a b => exact alu rfl h
  | xor a b c => exact alu rfl h
  | and a b c => exact alu rfl h
  | or a b c => exact alu rfl h
  | add a b c => exact alu rfl h
  | shiftRing a dir imm =>
    cases hr : s.mem.rings[a]? with
    | none => simp [action, Memory.rotate, Memory.ringAt_natCast, hr] at h
    | some r =>
      obtain rfl := Except.ok.inj ((action_shiftRing hr dir imm).symm.trans h)
      exact .shiftRing hr dir imm
  | tickAll imm => cases h; exact .tickAll imm
  | halt => cases h; exact .halt

/-- What no action changes, on any core. -/
theorem Acted.keeps {i : Instr} {s t : State} (h : Acted s i t) :
    s.sameStatic t ∧ t.ip = s.ip ∧ t.fault = s.fault := by
  cases h with
  | nop => exact ⟨⟨rfl, rfl, rfl, rfl⟩, rfl, rfl⟩
  | halt => exact ⟨⟨rfl, rfl, rfl, rfl⟩, rfl, rfl⟩
  | tickAll imm => exact ⟨s.sameStatic_rotateAll imm, rfl, rfl⟩
  | shiftRing hr dir imm =>
    exact ⟨⟨rfl, rfl, rfl, Memory.setRing_cellCounts hr (congrArg _ (Ring.rotate_cells ..))⟩, rfl, rfl⟩
  | register _ hshape =>
    exact ⟨⟨rfl, rfl, Memory.shape_gearCount hshape, Memory.shape_cellCounts hshape⟩, rfl, rfl⟩

/-- R31: no action but HALT's sets `halted`. -/
theorem Acted.halted_eq {i : Instr} {s t : State} (h : Acted s i t) (hi : i ≠ .halt) : t.halted = s.halted := by
  cases h with
  | halt => exact absurd rfl hi
  | nop => rfl
  | tickAll => rfl
  | shiftRing => rfl
  | register => rfl

/-- An instruction with a destination register completes where its operands are in the bank, and changes no cell but
those of that register. -/
theorem action_register {i : Instr} {s : State} {a : Nat} (hw : s.wf = true) (hdest : destRegister i = some a)
    (hc : checkOperands i s = true) :
    a < s.config.regCount ∧ ∃ m, action i s = .ok (s.setMem m) ∧ s.mem.sameOutside m (s.regWord a) := by
  have alu : ∀ {f : BitCell} {b c : Nat}, (s.regOk a && s.regOk b && s.regOk c) = true →
      action i s = s.withAlu (serial f (s.regWord b) (s.regWord c) (s.regWord a) s.mem) →
      a < s.config.regCount ∧ ∃ m, action i s = .ok (s.setMem m) ∧ s.mem.sameOutside m (s.regWord a) := by
    intro f b c hregs haction
    obtain ⟨ha, hb, hc⟩ := State.regOk_three_iff.1 hregs
    obtain ⟨m, halu, -, hframe⟩ := State.withAlu_ok hw f ha hb hc
    exact ⟨ha, m, haction.trans halu, hframe⟩
  cases i with
  | mov a b =>
    cases hdest
    obtain ⟨ha, hb⟩ := checkOperands_mov.1 hc
    exact alu (State.regOk_three_iff.2 ⟨ha, hb, hb⟩) rfl
  | xor a b c => cases hdest; exact alu hc rfl
  | and a b c => cases hdest; exact alu hc rfl
  | or a b c => cases hdest; exact alu hc rfl
  | add a b c => cases hdest; exact alu hc rfl
  | nop => cases hdest
  | shiftRing a dir imm => cases hdest
  | tickAll imm => cases hdest
  | halt => cases hdest

/-- D27: on a well-formed core an action whose operands passed their check does not fail. -/
theorem action_ok {i : Instr} {s : State} (hw : s.wf = true) (hc : checkOperands i s = true) :
    ∃ t, action i s = .ok t := by
  cases hdest : destRegister i with
  | some a =>
    obtain ⟨-, m, hm, -⟩ := action_register hw hdest hc
    exact ⟨_, hm⟩
  | none =>
    cases i with
    | nop => exact ⟨_, rfl⟩
    | shiftRing a dir imm =>
      obtain ⟨r, hr⟩ := Memory.exists_ring (checkOperands_shiftRing.1 hc)
      exact ⟨_, action_shiftRing hr dir imm⟩
    | tickAll imm => exact ⟨_, rfl⟩
    | halt => exact ⟨_, rfl⟩
    | mov | xor | and | or | add => cases hdest

/-! ### The glyph hook -/

/-- R154 by the formula of R111: what decides the hook. -/
theorem State.hookFires_iff {s : State} {r : Ring} (hw : s.wf = true) (hr : s.mem.rings[0]? = some r) :
    s.hookFires = true ↔ s.config.hook = true ∧ glyph r.offset s.mem.gearCount = 12 := by
  obtain ⟨-, -, hrings⟩ := s.mem.wf_iff.1 (s.wf_iff.1 hw).1
  simp only [State.hookFires, hr, Bool.and_eq_true, decide_eq_true_eq, glyph_eq (hrings 0 r hr).2]

theorem State.exists_ring_zero {s : State} (hw : s.wf = true) : ∃ r, s.mem.rings[0]? = some r :=
  Memory.exists_ring (s.mem.wf_iff.1 (s.wf_iff.1 hw).1).2.1

/-- The hook's effect is a global tick by the hook's ticks. -/
theorem State.glyphPreTick_eq {s : State} (hw : s.wf = true) :
    s.glyphPreTick = s.setMem (s.mem.rotateAll s.hookTicks) := by
  obtain ⟨r, hr⟩ := State.exists_ring_zero hw
  have hglyph : s.mem.activeGlyph 0 = .ok (glyph r.offset s.mem.gearCount) := by
    rw [Memory.activeGlyph, show s.mem.ringAt 0 = .ok r from Memory.ringAt_ok hr]
  have hfires := State.hookFires_iff hw hr
  simp only [State.glyphPreTick, hglyph, glyphTrigger, State.hookTicks, ← hfires]
  split
  · rfl
  · rw [Memory.rotateAll_zero (s.wf_iff.1 hw).1]; rfl

/-- Settles O37: the hook's ticks are one where it fires and none elsewhere. -/
theorem glyphHookAddsOneTick : Obligations.GlyphHookAddsOneTick := by
  intro s r hw hr
  rw [← State.hookFires_iff hw hr, State.glyphPreTick_eq hw, State.hookTicks]
  refine ⟨fun h => ⟨_, rfl, ?_⟩, fun h => ?_⟩
  · rw [if_pos h]
    exact Memory.turnedAll_rotateAll (State.gearCount_pos hw) 1
  · rw [if_neg h, Memory.rotateAll_zero (s.wf_iff.1 hw).1]
    rfl

end Sys2Proof.Machine
end

section
/-! The step: everything it can answer, and the invariants that follow (42_cpu_step.md R150 to R162). -/

namespace Sys2Proof.Machine

/-! ### What a step answers -/

/-- Settles O33: the fetch finds the instruction's slot, and no earlier case of the step applies. -/
theorem stepRunsTheInstruction : Obligations.StepRunsTheInstruction := by
  rintro s i ⟨hf, hh, slot, hp, hi⟩
  have hfetch : s.fetch = some slot := hp
  simp [step, hf, hh, hfetch, hi]

theorem step_of_fault {s : State} {f : FaultRecord} (hf : s.fault = some f) :
    step s = .fault (.recorded f.kind f.ip) := by
  rw [step, hf]

/-- R151: the host gets the recorded fault again, and the state as it was. -/
theorem hostStep_of_fault {s : State} {f : FaultRecord} (hf : s.fault = some f) : hostStep s = (s, some f) := by
  rw [hostStep, step_of_fault hf]

/-- Settles O34: the record is looked at before everything else. -/
theorem recordedFaultIsSticky : Obligations.RecordedFaultIsSticky := fun _ _ _ hf =>
  ⟨step_of_fault hf, hostStep_of_fault hf⟩

/-- Why a step can fail: an illegal word, an operand out of its bound, or a failure inside an action. -/
def failsWith (s : State) (k : FailureKind) : Prop :=
  k = .illegalEncoding ∨ k = .outOfRange ∨
    ∃ i, checkOperands i s.glyphPreTick = true ∧ action i s.glyphPreTick = .error k

/-- The next states of a step, on a core without a recorded fault: it rests, meets the program's end, fails after the
glyph pre-tick, or executes an instruction and retires it. -/
inductive Stepped (s : State) : State → Prop
  | rests (hh : s.halted = true) : Stepped s s
  | ends (hh : s.halted = false) (hend : s.prog.length ≤ s.ip) : Stepped s s.setHalted
  | fails {k : FailureKind} (hh : s.halted = false) (hk : failsWith s k) : Stepped s (s.glyphPreTick.raise k)
  | retires {i : Instr} {u : State} (hruns : s.runs i) (hc : checkOperands i s.glyphPreTick = true)
    (ha : action i s.glyphPreTick = .ok u) : Stepped s u.retire

/-- A core without a recorded fault always steps, and into one of these states. -/
theorem stepped_of_no_fault {s : State} (hf : s.fault = none) : ∃ t, step s = .next t ∧ Stepped s t := by
  obtain ⟨f, hf', -⟩ | ⟨-, hh, h⟩ | ⟨-, hh, hp, h⟩ | ⟨slot, e, -, hh, hp, he, h⟩ | ⟨slot, i, -, hh, hp, hi, h⟩ :=
    step_cases s
  · rw [hf] at hf'; cases hf'
  · exact ⟨_, h, .rests hh⟩
  · exact ⟨_, h, .ends hh (List.getElem?_eq_none_iff.1 hp)⟩
  · exact ⟨_, h, .fails hh (.inl rfl)⟩
  · rw [exec_eq_dispatch] at h
    obtain ⟨hc, hd⟩ | ⟨k, hc, ha, hd⟩ | ⟨u, hc, ha, hd⟩ :=
      State.dispatch_cases s.glyphPreTick (checkOperands i s.glyphPreTick) (action i s.glyphPreTick)
    · exact ⟨_, h.trans hd, .fails hh (.inr (.inl rfl))⟩
    · exact ⟨_, h.trans hd, .fails hh (.inr (.inr ⟨i, hc, ha⟩))⟩
    · exact ⟨_, h.trans hd, .retires ⟨hf, hh, slot, hp, hi⟩ hc ha⟩

theorem stepped_of_step {s t : State} (h : step s = .next t) : s.fault = none ∧ Stepped s t := by
  have hf : s.fault = none := by
    cases hf : s.fault with
    | none => rfl
    | some f => rw [step_of_fault hf] at h; cases h
  obtain ⟨t', h', hs⟩ := stepped_of_no_fault hf
  obtain rfl : t' = t := by rw [h] at h'; cases h'; rfl
  exact ⟨hf, hs⟩

theorem State.runs.ip_lt {s : State} {i : Instr} (h : s.runs i) : s.ip < s.prog.length := by
  obtain ⟨-, -, slot, hp, -⟩ := h
  exact (List.getElem?_eq_some_iff.1 hp).1

theorem State.runs.not_halted {s : State} {i : Instr} (h : s.runs i) : s.halted = false := by
  obtain ⟨-, hh, -⟩ := h
  exact hh

/-- An instruction that completes keeps what no action and no tick changes, and advances `ip`. -/
theorem retire_keeps {i : Instr} {s u : State} (ha : action i s.glyphPreTick = .ok u) :
    s.sameStatic u.retire ∧ u.retire.ip = s.ip + 1 ∧ u.retire.fault = s.fault := by
  obtain ⟨hstatic, hip, hfault⟩ := (acted_of_action ha).keeps
  refine ⟨(s.sameStatic_glyphPreTick.trans hstatic).trans u.sameStatic_retire, ?_, ?_⟩
  · rw [u.retire_ip, hip, s.glyphPreTick_ip]
  · rw [u.retire_fault, hfault, s.glyphPreTick_fault]

/-! ### The invariant -/

/-- The invariant rests on the configuration, the program, the counts and `ip` alone. -/
theorem State.wf_of_same {s t : State} (hw : s.wf = true) (hconfig : t.config = s.config) (hprog : t.prog = s.prog)
    (hmem : t.mem.wf = true) (hg : t.mem.gearCount = s.mem.gearCount) (hn : t.mem.ringCount = s.mem.ringCount)
    (hip : t.ip ≤ s.prog.length) : t.wf = true := by
  obtain ⟨-, hlegal, -, hlen, hrings, hgears⟩ := s.wf_iff.1 hw
  refine t.wf_iff.2 ⟨hmem, ?_, ?_⟩
  · rw [hconfig, ← hlegal]
    simp only [configLegal, hg, hn]
  · rw [hconfig, hprog, hg, hn]
    exact ⟨hip, hlen, hrings, hgears⟩

theorem State.glyphPreTick_wf {s : State} (hw : s.wf = true) : s.glyphPreTick.wf = true := by
  obtain ⟨hmem, -, hip, -, -, -⟩ := s.wf_iff.1 hw
  obtain ⟨hmem', hg, hn⟩ := State.glyphPreTick_keeps hmem
  exact State.wf_of_same hw s.glyphPreTick_config s.glyphPreTick_prog hmem' hg hn (s.glyphPreTick_ip ▸ hip)

/-- An instruction that completes keeps the invariant, because it was fetched below the program's length. -/
theorem retire_wf {i : Instr} {s u : State} (hw : s.wf = true) (hruns : s.runs i)
    (ha : action i s.glyphPreTick = .ok u) : u.retire.wf = true := by
  have hpre := State.glyphPreTick_wf hw
  obtain ⟨hconfig, hprog, hip, -, hmem, hg, hn⟩ := action_keeps ha (s.glyphPreTick.wf_iff.1 hpre).1
  refine State.wf_of_same hpre hconfig hprog (Memory.rotateAll_keeps_wf 1 hmem) hg
    ((u.mem.rotateAll_ringCount 1).trans hn) ?_
  rw [u.retire_ip, hip, s.glyphPreTick_ip, s.glyphPreTick_prog]
  exact hruns.ip_lt

theorem Stepped.wf {s t : State} (h : Stepped s t) (hw : s.wf = true) : t.wf = true := by
  cases h with
  | rests => exact hw
  | ends => exact hw
  | fails => exact State.glyphPreTick_wf hw
  | retires hruns _ ha => exact retire_wf hw hruns ha

/-- Settles O45: each of the step's next states has the invariant. -/
theorem stepKeepsWellFormed : Obligations.StepKeepsWellFormed := fun _ _ hw h => (stepped_of_step h).2.wf hw

/-! ### Failures, `ip`, `halted` -/

/-- R211, R213: on a well-formed core no action fails, so only two kinds are left. -/
theorem failsWith.kind_eq {s : State} {k : FailureKind} (h : failsWith s k) (hw : s.wf = true) :
    k = .outOfRange ∨ k = .illegalEncoding := by
  obtain hk | hk | ⟨i, hc, herr⟩ := h
  · exact .inr hk
  · exact .inl hk
  · obtain ⟨t, hok⟩ := action_ok (State.glyphPreTick_wf hw) hc
    rw [herr] at hok; cases hok

/-- Settles O38: the failing state is the only one of the four with a record. -/
theorem failingStepRecordsItsFault : Obligations.FailingStepRecordsItsFault := by
  intro s t f hw hf hstep htf
  have hhost : hostStep s = (t, some f) := by rw [hostStep_of_next hstep, htf]
  cases (stepped_of_step hstep).2 with
  | rests => rw [hf] at htf; cases htf
  | ends => rw [s.setHalted_fault, hf] at htf; cases htf
  | fails _ hk =>
    obtain rfl := Option.some.inj htf
    exact ⟨rfl, s.glyphPreTick_ip, hk.kind_eq hw, hhost⟩
  | retires _ _ ha => rw [(retire_keeps ha).2.2, hf] at htf; cases htf

/-- Settles O39: `ip` advances in the one case that dispatches and records no fault. -/
theorem ipAdvancesByOne : Obligations.IpAdvancesByOne := by
  intro s t _ hstep
  obtain ⟨hf, hs⟩ := stepped_of_step hstep
  cases hs with
  | rests hh =>
    have hno : ¬ ∃ i, s.runs i := fun ⟨i, hi⟩ => by simp [hi.not_halted] at hh
    exact ⟨fun h => absurd h.1 hno, fun _ => rfl⟩
  | ends _ hend =>
    have hno : ¬ ∃ i, s.runs i := fun ⟨i, hi⟩ => by have := hi.ip_lt; omega
    exact ⟨fun h => absurd h.1 hno, fun _ => rfl⟩
  | fails => exact ⟨fun ⟨_, hnone⟩ => (by cases hnone), fun _ => s.glyphPreTick_ip⟩
  | retires hruns _ ha =>
    obtain ⟨-, hip, hfault⟩ := retire_keeps ha
    exact ⟨fun _ => hip, fun h => absurd ⟨⟨_, hruns⟩, hfault.trans hf⟩ h⟩

/-- Settles O40, case by case of the step. -/
theorem onlyHaltAndProgramEndHalt : Obligations.OnlyHaltAndProgramEndHalt := by
  refine ⟨fun s t hstep => ?_, fun s t p h => congrArg State.halted (State.eq_of_loadProgram h)⟩
  cases (stepped_of_step hstep).2 with
  | rests hh => exact ⟨fun hn => by simp [hn] at hh, fun _ => rfl⟩
  | ends hh hend => exact ⟨fun _ _ => .inr hend, fun h => by simp [h] at hh⟩
  | fails hh =>
    refine ⟨fun _ ht => ?_, fun h => by simp [h] at hh⟩
    rw [State.raise_halted, s.glyphPreTick_halted, hh] at ht
    cases ht
  | @retires i u hruns _ ha =>
    refine ⟨fun hh ht => ?_, fun h => by simp [hruns.not_halted] at h⟩
    by_cases hi : i = .halt
    · exact .inl (hi ▸ hruns)
    · rw [u.retire_halted, (acted_of_action ha).halted_eq hi, s.glyphPreTick_halted, hh] at ht
      cases ht

/-- Settles O41, case by case of the step. -/
theorem stepKeepsProgramAndConfig : Obligations.StepKeepsProgramAndConfig := by
  intro s t hstep
  have hstatic : s.sameStatic t := by
    cases (stepped_of_step hstep).2 with
    | rests => exact ⟨rfl, rfl, rfl, rfl⟩
    | ends => exact ⟨rfl, rfl, rfl, rfl⟩
    | fails => exact s.sameStatic_glyphPreTick
    | retires _ _ ha => exact (retire_keeps ha).1
  exact hstatic

/-! ### Directions -/

/-- The recorded direction of a ring, if there is such a ring. -/
def Memory.ringDir (m : Memory) (n : Nat) : Option Dir := (m.rings[n]?).map Ring.dir

@[simp] theorem Memory.rotateAll_ringDir (m : Memory) (k : Int) (n : Nat) :
    (m.rotateAll k).ringDir n = m.ringDir n := by
  rw [Memory.ringDir, m.rotateAll_rings, Option.map_map, Memory.ringDir]
  exact congrArg (Option.map · _) (funext fun r => Ring.rotate_dir ..)

theorem Memory.shape_ringDir {m m' : Memory} (h : m'.shape = m.shape) (n : Nat) : m'.ringDir n = m.ringDir n := by
  simpa [Memory.shape, Memory.ringDir, Function.comp_def] using congrArg (fun x => (x.2[n]?).map fun y => y.2.1) h

@[simp] theorem State.glyphPreTick_ringDir (s : State) (n : Nat) :
    s.glyphPreTick.mem.ringDir n = s.mem.ringDir n := by
  obtain h | ⟨-, -, h⟩ := s.glyphPreTick_cases <;> rw [h]
  exact s.mem.rotateAll_ringDir 1 n

/-- R23: an action changes a ring's direction only as SHIFT_RING of that ring. -/
theorem Acted.ringDir_eq {i : Instr} {s t : State} (h : Acted s i t) (n : Nat) :
    t.mem.ringDir n = s.mem.ringDir n ∨ ∃ dir imm, i = .shiftRing n dir imm ∧ t.mem.ringDir n = some dir := by
  cases h with
  | nop => exact .inl rfl
  | halt => exact .inl rfl
  | tickAll imm => exact .inl (s.mem.rotateAll_ringDir imm n)
  | register _ hshape => exact .inl (Memory.shape_ringDir hshape n)
  | @shiftRing a r hr dir imm =>
    rw [State.setMem_mem, Memory.ringDir, s.mem.setRing_rings (Memory.lt_ringCount hr)]
    by_cases han : a = n
    · subst han
      exact .inr ⟨dir, imm, rfl, by rw [if_pos rfl, Option.map_some, Ring.rotate_dir]⟩
    · exact .inl (by rw [if_neg han, Memory.ringDir])

/-- Settles O42: ticks keep every direction, so only the action can change one. -/
theorem onlyShiftRingChangesADirection : Obligations.OnlyShiftRingChangesADirection := by
  intro s t n r r' _ hstep hr hr' hne
  have hdir : s.mem.ringDir n = some r.dir := by rw [Memory.ringDir, hr, Option.map_some]
  have hdir' : t.mem.ringDir n = some r'.dir := by rw [Memory.ringDir, hr', Option.map_some]
  have hchanged : t.mem.ringDir n ≠ s.mem.ringDir n := by rw [hdir, hdir']; exact fun e => hne (Option.some.inj e)
  cases (stepped_of_step hstep).2 with
  | rests => exact absurd rfl hchanged
  | ends => exact absurd rfl hchanged
  | fails => exact absurd (s.glyphPreTick_ringDir n) hchanged
  | @retires i u hruns _ ha =>
    rw [u.retire_mem, u.mem.rotateAll_ringDir] at hdir' hchanged
    obtain heq | ⟨dir, imm, rfl, hnew⟩ := (acted_of_action ha).ringDir_eq n
    · exact absurd (heq.trans (s.glyphPreTick_ringDir n)) hchanged
    · obtain rfl := Option.some.inj (hnew.symm.trans hdir')
      exact ⟨imm, hruns⟩

/-! ### Cells -/

theorem Memory.setRing_cell {m : Memory} {i : Nat} {r r' : Ring} (hr : m.rings[i]? = some r)
    (hcells : r'.cells = r.cells) (ring p : Nat) : (m.setRing i r').cell ring p = m.cell ring p := by
  rw [Memory.cell, Memory.cell, m.setRing_rings (Memory.lt_ringCount hr)]
  by_cases hi : i = ring
  · subst hi
    simp only [if_true, hr, Ring.cell, hcells]
  · rw [if_neg hi]

@[simp] theorem State.glyphPreTick_cell (s : State) (ring p : Nat) :
    s.glyphPreTick.mem.cell ring p = s.mem.cell ring p := by
  obtain h | ⟨-, -, h⟩ := s.glyphPreTick_cases <;> rw [h]
  exact s.mem.rotateAll_cell 1 ring p

/-- R21: only an action with a destination register changes cells. -/
theorem Acted.cell_eq {i : Instr} {s t : State} (h : Acted s i t) (hdest : destRegister i = none) (ring p : Nat) :
    t.mem.cell ring p = s.mem.cell ring p := by
  cases h with
  | nop => rfl
  | halt => rfl
  | tickAll imm => exact s.mem.rotateAll_cell imm ring p
  | shiftRing hr dir imm => exact Memory.setRing_cell hr (Ring.rotate_cells ..) ring p
  | register hsome => rw [hsome] at hdest; cases hdest

/-- Settles O43: ticks move no cell, and an action changes those of its destination register alone. -/
theorem onlyDestinationCellsChange : Obligations.OnlyDestinationCellsChange := by
  intro s t ring p hw hstep hchanged
  cases (stepped_of_step hstep).2 with
  | rests => exact absurd rfl hchanged
  | ends => exact absurd rfl hchanged
  | fails => exact absurd (s.glyphPreTick_cell ring p) hchanged
  | @retires i u hruns hc ha =>
    rw [u.retire_mem, u.mem.rotateAll_cell, ← s.glyphPreTick_cell] at hchanged
    cases hdest : destRegister i with
    | none => exact absurd ((acted_of_action ha).cell_eq hdest ring p) hchanged
    | some a =>
      obtain ⟨hreg, m, hm, -, hout⟩ := action_register (State.glyphPreTick_wf hw) hdest hc
      obtain rfl := Except.ok.inj (hm.symm.trans ha)
      rw [State.regWord_congr s.glyphPreTick_config] at hout
      rw [s.glyphPreTick_config] at hreg
      exact ⟨i, a, hruns, hdest, hreg, by_contra fun hb => hchanged (hout ring p hb)⟩

/-! ### Offsets -/

/-- Every ring of `m` is in `m'` with its direction kept and its offset turned by `k` places in it. -/
def Memory.offsetsTurned (m m' : Memory) (k : Int) : Prop :=
  m'.gearCount = m.gearCount ∧ ∀ (n : Nat) (r : Ring), m.rings[n]? = some r →
    ∃ r', m'.rings[n]? = some r' ∧ r'.dir = r.dir ∧ r'.offset = turned m.gearCount r.dir r.offset k

theorem Memory.offsetsTurned.trans {m m' m'' : Memory} {j k : Int} (hg : 0 < m.gearCount)
    (h : m.offsetsTurned m' j) (h' : m'.offsetsTurned m'' k) : m.offsetsTurned m'' (j + k) := by
  refine ⟨h'.1.trans h.1, fun n r hr => ?_⟩
  obtain ⟨r', hr', hdir, hoff⟩ := h.2 n r hr
  obtain ⟨r'', hr'', hdir', hoff'⟩ := h'.2 n r' hr'
  exact ⟨r'', hr'', hdir'.trans hdir, by rw [hoff', h.1, hdir, hoff, turned_turned hg]⟩

theorem Memory.offsetsTurned_rotateAll {m : Memory} (hg : 0 < m.gearCount) (k : Int) :
    m.offsetsTurned (m.rotateAll k) k := by
  obtain ⟨hgear, -, hrings⟩ := Memory.turnedAll_rotateAll hg k
  exact ⟨hgear, fun n r hr => ⟨_, hrings n r hr, rfl, rfl⟩⟩

/-- A change of cells turns nothing. -/
theorem Memory.offsetsTurned_of_shape {m m' : Memory} (hw : m.wf = true) (h : m'.shape = m.shape) :
    m.offsetsTurned m' 0 := by
  obtain ⟨-, -, hrings⟩ := m.wf_iff.1 hw
  refine ⟨Memory.shape_gearCount h, fun n r hr => ?_⟩
  obtain ⟨r', hr'⟩ := Memory.exists_ring (m := m') (i := n)
    (by rw [Memory.shape_ringCount h]; exact Memory.lt_ringCount hr)
  obtain ⟨x, hx, hoff, hdir, -⟩ := Memory.shape_ring h hr'
  obtain rfl := Option.some.inj (hr.symm.trans hx)
  exact ⟨r', hr', hdir, by rw [hoff, turned_of_dvd (hrings n r hr).2 (dvd_zero _)]⟩

theorem askedTurn_of_destRegister {i : Instr} {a : Nat} (h : destRegister i = some a) : askedTurn i = 0 := by
  cases i with
  | tickAll => cases h
  | nop | mov | xor | and | or | add | shiftRing | halt => rfl

/-- R162: the turn an action makes, SHIFT_RING's apart. -/
theorem Acted.offsetsTurned {i : Instr} {s t : State} (h : Acted s i t) (hw : s.mem.wf = true)
    (hi : ∀ a dir imm, i ≠ .shiftRing a dir imm) : s.mem.offsetsTurned t.mem (askedTurn i) := by
  cases h with
  | nop => exact Memory.offsetsTurned_of_shape hw rfl
  | halt => exact Memory.offsetsTurned_of_shape hw rfl
  | tickAll imm => exact Memory.offsetsTurned_rotateAll (s.mem.wf_iff.1 hw).1 imm
  | shiftRing => exact absurd rfl (hi _ _ _)
  | register hdest hshape =>
    rw [askedTurn_of_destRegister hdest]
    exact Memory.offsetsTurned_of_shape hw hshape

/-- An instruction that runs and leaves no fault is retired. -/
theorem Stepped.retired_of_runs {s t : State} {i : Instr} (h : Stepped s t) (hruns : s.runs i)
    (hf : t.fault = none) : ∃ u, action i s.glyphPreTick = .ok u ∧ t = u.retire := by
  cases h with
  | rests hh => simp [hruns.not_halted] at hh
  | ends _ hend => have := hruns.ip_lt; omega
  | fails => cases hf
  | @retires i' u hruns' _ ha =>
    obtain ⟨-, -, slot, hp, hi⟩ := hruns
    obtain ⟨-, -, slot', hp', hi'⟩ := hruns'
    obtain rfl := Option.some.inj (hp.symm.trans hp')
    obtain rfl := Except.ok.inj (hi.symm.trans hi')
    exact ⟨u, ha, rfl⟩

/-- Settles O44: the hook's tick, the action's turn and the end tick, one after another. -/
theorem tickAccounting : Obligations.TickAccounting := by
  intro s t i n r hw hruns hi hstep hf hr
  obtain ⟨u, ha, rfl⟩ := (stepped_of_step hstep).2.retired_of_runs hruns hf
  have hmem := (s.glyphPreTick.wf_iff.1 (State.glyphPreTick_wf hw)).1
  have hg := State.gearCount_pos hw
  have hpre : s.mem.offsetsTurned s.glyphPreTick.mem s.hookTicks := by
    rw [State.glyphPreTick_eq hw]; exact Memory.offsetsTurned_rotateAll hg _
  have haction := (acted_of_action ha).offsetsTurned hmem hi
  have hretire : u.mem.offsetsTurned u.retire.mem 1 :=
    Memory.offsetsTurned_rotateAll (by rw [haction.1, hpre.1]; exact hg) 1
  exact ((hpre.trans hg haction).trans hg hretire).2 n r hr

/-! ### Runs -/

/-- Settles O46, by induction on the instructions left: only a retired instruction goes on, and it leaves one less. -/
theorem everyRunEnds : Obligations.EveryRunEnds := by
  intro s hw hf
  induction hleft : s.prog.length - s.ip using Nat.strong_induction_on generalizing s with
  | _ n ih =>
    obtain ⟨t, hstep, hs⟩ := stepped_of_no_fault hf
    have hwt := hs.wf hw
    have hrun : core.run 1 s = .next t := run_next hstep 0
    cases hs with
    | rests hh => exact ⟨0, s, by omega, rfl, hw, .inl ⟨hh, hf⟩⟩
    | ends => exact ⟨1, _, by omega, hrun, hwt, .inl ⟨rfl, hf⟩⟩
    | fails _ hk =>
      refine ⟨1, _, by omega, hrun, hwt, .inr ?_⟩
      obtain rfl | rfl := hk.kind_eq hw
      · exact .inl rfl
      · exact .inr rfl
    | @retires i u hruns _ ha =>
      obtain ⟨⟨hprog, -⟩, hip, hfault⟩ := retire_keeps ha
      have hlt := hruns.ip_lt
      obtain ⟨k, t, hk, hrun', hend⟩ := ih _ (by rw [hprog, hip]; omega) u.retire hwt (hfault.trans hf) rfl
      rw [hprog, hip] at hk
      exact ⟨k + 1, t, by omega, (run_next hstep k).trans hrun', hend⟩

end Sys2Proof.Machine
end

section
/-! Construction, which is reset (44_host_interface.md R190, R191, 10_state.md section 6). -/

namespace Sys2Proof.Machine

/-! ### The Machine -/

theorem constructMachine_eq_ok {lim : Limits} {dir : Dir} {cells : Nat → Nat → Bool} {nr g : Int} {m : Memory} :
    constructMachine lim dir cells nr g = .ok m ↔
      (0 < nr ∧ 0 < g ∧ nr ≤ lim.maxRings ∧ g ≤ lim.maxGears) ∧ Memory.initial nr.toNat g.toNat dir cells = m := by
  unfold constructMachine
  split
  · rename_i h; simp [h]
  · rename_i h; simp [h]

@[simp] theorem Memory.initial_ringCount (n g : Nat) (d : Dir) (cells : Nat → Nat → Bool) :
    (Memory.initial n g d cells).ringCount = n := by simp [Memory.initial, Memory.ringCount]

@[simp] theorem Memory.initial_gearCount (n g : Nat) (d : Dir) (cells : Nat → Nat → Bool) :
    (Memory.initial n g d cells).gearCount = g := rfl

/-- R37, R38: a ring of a Machine just constructed. -/
theorem Memory.initial_ring {n g i : Nat} {d : Dir} {cells : Nat → Nat → Bool} {r : Ring}
    (h : (Memory.initial n g d cells).rings[i]? = some r) : r = Ring.initial g d (cells i) := by
  rw [Memory.initial, List.getElem?_map] at h
  obtain ⟨x, hx, rfl⟩ := Option.map_eq_some_iff.1 h
  obtain ⟨_, rfl⟩ := List.getElem?_eq_some_iff.1 hx
  rw [List.getElem_range]

theorem Ring.initial_cells (g : Nat) (d : Dir) (cells : Nat → Bool) {p : Nat} (hp : p < g) :
    (Ring.initial g d cells).cells[p]? = some (cells p) := by
  simp [Ring.initial, hp]

/-! ### The core -/

/-- R191: the three legal widths are those of the three profiles. -/
theorem profileOfWidth_eq_some {width : Int} {p : Profile} :
    profileOfWidth width = some p ↔ (profileWidth p : Int) = width := by
  constructor
  · intro h
    unfold profileOfWidth at h
    split_ifs at h with h64 h360 h720 <;> cases h
    · exact h64.symm
    · exact h360.symm
    · exact h720.symm
  · rintro rfl
    cases p <;> rfl

theorem constructCPU_eq_ok {lim : Limits} {base : Nat} {m : Memory} {width nreg : Int} {hook : Bool} {s : State} :
    constructCPU lim base m width nreg hook = .ok s ↔
      ∃ p, (profileWidth p : Int) = width ∧ 0 < nreg ∧ configLegal p nreg.toNat base m = true ∧
        State.initial ⟨p, nreg.toNat, hook, base, lim⟩ m = s := by
  simp only [← profileOfWidth_eq_some, constructCPU]
  cases hp : profileOfWidth width with
  | none => simp
  | some p =>
    by_cases h : 0 < nreg ∧ configLegal p nreg.toNat base m = true
    · simp [h]
    · simp only [if_neg h, reduceCtorEq, false_iff]
      rintro ⟨p', hp', hpos, hlegal, -⟩
      obtain rfl := Option.some.inj hp'
      exact h ⟨hpos, hlegal⟩

/-- A construction that gives no core fails with InvalidConfiguration. -/
theorem constructCPU_error {lim : Limits} {base : Nat} {m : Memory} {width nreg : Int} {hook : Bool}
    (h : ∀ s, constructCPU lim base m width nreg hook ≠ .ok s) :
    constructCPU lim base m width nreg hook = .error .invalidConfiguration := by
  unfold constructCPU at h ⊢
  split
  · rfl
  · rename_i p hp
    simp only [hp] at h
    split
    · rename_i hlegal
      exact absurd (if_pos hlegal) (h _)
    · rfl

/-- Settles O47: the Machine is `Memory.initial` of its arguments, and the core is over it with every check made. -/
theorem constructionLeavesResetValues : Obligations.ConstructionLeavesResetValues := by
  intro lim base dir cells nr g width nreg hook m s hm hs
  obtain ⟨⟨hnr, hg, hrings, hgears⟩, rfl⟩ := constructMachine_eq_ok.1 hm
  obtain ⟨p, -, -, hlegal, rfl⟩ := constructCPU_eq_ok.1 hs
  refine ⟨?_, rfl, rfl, rfl, rfl, rfl, ?_, ?_, fun i r hr => ?_⟩
  · refine (State.wf_iff _).2 ⟨Memory.initial_wf (by omega) (by omega) dir cells, hlegal, Nat.le_refl 0,
      Nat.zero_le _, ?_, ?_⟩
    · simp only [State.initial, Memory.initial_ringCount]; omega
    · simp only [State.initial, Memory.initial_gearCount]; omega
  · rw [Memory.initial_ringCount, Int.toNat_of_nonneg hnr.le]
  · rw [Memory.initial_gearCount, Int.toNat_of_nonneg hg.le]
  · rw [Memory.initial_ring hr]
    exact ⟨rfl, rfl, fun p hp => Ring.initial_cells _ _ _ hp⟩

/-- Settles O48: the reset state is a construction. -/
theorem resetIsWellFormed : Obligations.ResetIsWellFormed := by
  obtain ⟨hm, hs⟩ := State.reset_eq_construction
  exact ⟨(constructionLeavesResetValues _ _ _ _ _ _ _ _ _ _ _ hm hs).1, rfl, rfl, rfl, rfl⟩

/-- R191's checks on the arguments as the host writes them. -/
theorem exists_legal_profile_iff {base : Nat} {m : Memory} {width nreg : Int} (hpos : 0 < nreg) :
    (∃ p, (profileWidth p : Int) = width ∧ configLegal p nreg.toNat base m = true) ↔
      (width = 64 ∧ base + 64 ≤ m.gearCount ∧ nreg ≤ m.ringCount) ∨
      (width = 360 ∧ m.gearCount = 360 ∧ nreg ≤ m.ringCount) ∨
      (width = 720 ∧ m.gearCount = 360 ∧ 2 * nreg ≤ m.ringCount) := by
  constructor
  · rintro ⟨p, rfl, hlegal⟩
    cases p <;> simp only [configLegal, Bool.and_eq_true, decide_eq_true_eq] at hlegal <;>
      simp only [profileWidth] <;> omega
  · rintro (⟨rfl, hbase, hn⟩ | ⟨rfl, hg, hn⟩ | ⟨rfl, hg, hn⟩)
    · exact ⟨.w64, rfl, by simp [configLegal]; omega⟩
    · exact ⟨.w360, rfl, by simp [configLegal]; omega⟩
    · exact ⟨.w720, rfl, by simp [configLegal]; omega⟩

/-- Settles O49: each construction is one check. -/
theorem constructionChecks : Obligations.ConstructionChecks := by
  refine ⟨fun lim dir cells nr g => ?_, fun lim base m width nreg hook => ?_⟩
  · split
    · rename_i h; exact ⟨_, constructMachine_eq_ok.2 ⟨h, rfl⟩⟩
    · rename_i h; exact if_neg h
  · split
    · rename_i h
      obtain ⟨hpos, hargs⟩ := h
      obtain ⟨p, hwidth, hlegal⟩ := (exists_legal_profile_iff hpos).2 hargs
      exact ⟨_, constructCPU_eq_ok.2 ⟨p, hwidth, hpos, hlegal, rfl⟩, hwidth, Int.toNat_of_nonneg hpos.le, rfl, rfl⟩
    · rename_i h
      refine constructCPU_error fun s hs => h ?_
      obtain ⟨p, hwidth, hpos, hlegal, -⟩ := constructCPU_eq_ok.1 hs
      exact ⟨hpos, (exists_legal_profile_iff hpos).1 ⟨p, hwidth, hlegal⟩⟩

end Sys2Proof.Machine
end

section
/-! The host's transactions on what it has: reads, dumps, and register writes (44_host_interface.md R192 to R204). -/

namespace Sys2Proof.Machine

/-! ### Reads and changes -/

@[simp] theorem System.readMemory_fst (sys : System) (f : Memory → Except FailureKind Reply) :
    (sys.readMemory f).1 = sys := by
  unfold System.readMemory
  split
  · rfl
  · split <;> rfl

@[simp] theorem System.readCore_fst (sys : System) (f : State → Except FailureKind Reply) :
    (sys.readCore f).1 = sys := by
  unfold System.readCore
  split
  · split <;> rfl
  · rfl

theorem System.call_capacity_fst (lim : Limits) (base : Nat) (dir : Dir) (cells : Nat → Nat → Bool) (sys : System)
    (r g b : Int) : (System.call lim base dir cells sys (.capacity r g b)).1 = sys := by
  rw [System.call]
  split <;> rfl

/-- A change of a core's Machine keeps its fault record. -/
theorem System.changeMemory_bound (s : State) (f : Memory → Except FailureKind Memory) :
    ∃ t, ((System.bound s).changeMemory f).1 = .bound t ∧ t.fault = s.fault := by
  simp only [System.changeMemory, System.memory]
  split
  · exact ⟨_, rfl, rfl⟩
  · exact ⟨s, rfl, rfl⟩

/-- Settles O52: each of these calls is a read of the core or of the Machine. -/
theorem inspectionHasNoSideEffect : Obligations.InspectionHasNoSideEffect := by
  intro lim base dir cells sys k r n i c hc
  simp only [List.mem_cons, List.not_mem_nil, or_false] at hc
  obtain rfl | rfl | rfl | rfl | rfl | rfl | rfl | rfl | rfl := hc
  · exact sys.readCore_fst _
  · exact sys.readCore_fst _
  · exact sys.readCore_fst _
  · exact sys.readMemory_fst _
  · exact sys.readMemory_fst _
  · exact sys.readMemory_fst _
  · exact sys.readMemory_fst _
  · exact System.call_capacity_fst lim base dir cells sys k r n
  · exact sys.readMemory_fst _

/-- Settles O51: reads change nothing, changes of the Machine and loading keep the record, and a step fails again. -/
theorem onlyConstructionClearsAFault : Obligations.OnlyConstructionClearsAFault := by
  intro lim base dir cells s f c hf hmachine hcpu
  have kept : ∀ {sys : System}, sys = .bound s → ∃ t, sys = .bound t ∧ t.fault = some f := fun h => ⟨s, h, hf⟩
  have changed : ∀ g, ∃ t, ((System.bound s).changeMemory g).1 = .bound t ∧ t.fault = some f := fun g => by
    obtain ⟨t, ht, hft⟩ := System.changeMemory_bound s g
    exact ⟨t, ht, hft.trans hf⟩
  cases c with
  | constructMachine nr g => exact absurd rfl (hmachine nr g)
  | constructCPU w n h => exact absurd rfl (hcpu w n h)
  | loadProgram p =>
    cases hp : s.loadProgram p with
    | none => exact kept (by simp only [System.call, hp])
    | some t => exact ⟨t, by simp only [System.call, hp], (congrArg State.fault (State.eq_of_loadProgram hp)).trans hf⟩
  | step => exact kept (by simp only [System.call, hostStep_of_fault hf])
  | halted => exact kept (System.readCore_fst _ _)
  | instructionPointer => exact kept (System.readCore_fst _ _)
  | registerBits k => exact kept (System.readCore_fst _ _)
  | ringBits ring count => exact kept (System.readMemory_fst _ _)
  | ringOffset ring => exact kept (System.readMemory_fst _ _)
  | ringDirection ring => exact kept (System.readMemory_fst _ _)
  | activeGlyph ring => exact kept (System.readMemory_fst _ _)
  | capacity r g b => exact kept (System.call_capacity_fst ..)
  | rotate ring dir steps => exact changed _
  | rotateAll steps => exact changed _
  | getBit ring i => exact kept (System.readMemory_fst _ _)
  | setBit ring i v => exact changed _

/-- Settles O55: the report's check, and its product on natural numbers. -/
theorem capacityIsExact : Obligations.CapacityIsExact := by
  refine ⟨fun r g b hr hg hb => ?_, fun r g b h => if_neg (by omega)⟩
  rw [capacity, if_pos (by omega), ← Nat.cast_mul, ← Nat.cast_mul, Int.toNat_natCast]

/-! ### The ring dump -/

/-- R109 on a place inside the rings. -/
theorem Memory.getBit_inside {m : Memory} {ring : Int} {r : Ring} (hr : m.ringAt ring = .ok r) {j : Nat}
    (hj : j < m.gearCount) : m.getBit ring j = .ok (r.cell ((j + r.offset) % m.gearCount)) := by
  simp only [Memory.getBit, hr, Ring.getBit, Ring.logicalToPhysical_natCast, if_pos hj]

/-- R197: the dump's bits are the reads of the logical indices in increasing order. -/
theorem Memory.ringBitList_eq_map {m : Memory} {ring : Int} {r : Ring} (hr : m.ringAt ring = .ok r) {count : Nat}
    (hcount : count ≤ m.gearCount) :
    m.ringBitList ring count =
      .ok ((List.range' 0 count).map fun j => r.cell ((j + r.offset) % m.gearCount)) := by
  have hread : ∀ j : Nat, 0 ≤ j → j < 0 + count →
      m.getBit ring j = .ok (r.cell ((j + r.offset) % m.gearCount)) := fun j _ hj =>
    Memory.getBit_inside hr (by omega)
  rw [Memory.ringBitList, hr]
  exact (if_pos (by omega)).trans (readBits_eq_map hread)

/-- D25: what the dump refuses. -/
theorem Memory.ringBitList_error {m : Memory} {ring count : Int}
    (h : ¬ (0 ≤ ring ∧ ring < m.ringCount ∧ 0 ≤ count ∧ count ≤ m.gearCount)) :
    m.ringBitList ring count = .error .outOfRange := by
  rw [Memory.ringBitList]
  cases hr : m.ringAt ring with
  | error e =>
    by_cases hring : ring < 0 ∨ (m.ringCount : Int) ≤ ring
    · rw [Memory.ringAt_error hring] at hr
      cases hr; rfl
    · obtain ⟨r, hr'⟩ := Memory.exists_ring (m := m) (i := ring.toNat) (by omega)
      rw [Memory.ringAt_eq_ok.2 ⟨by omega, hr'⟩] at hr
      cases hr
  | ok r =>
    obtain ⟨h0, hr'⟩ := Memory.ringAt_eq_ok.1 hr
    have := Memory.lt_ringCount hr'
    exact if_neg (by omega)

/-- Settles O54: the list behind the dump is the ring's reads. -/
theorem ringDumpListsLogicalIndices : Obligations.RingDumpListsLogicalIndices := by
  intro m ring count _
  constructor
  · rintro ⟨h0, hring, hc0, hc⟩
    obtain ⟨r, hr⟩ := Memory.exists_ring (m := m) (i := ring.toNat) (by omega)
    have hring := Memory.ringAt_eq_ok.2 ⟨h0, hr⟩
    obtain ⟨n, rfl⟩ := Int.eq_ofNat_of_zero_le hc0
    have hlist := Memory.ringBitList_eq_map hring (show n ≤ m.gearCount by omega)
    refine ⟨_, hlist, by rw [Memory.ringBits, hlist], by simp, by simp, fun j b hb => ?_⟩
    refine ⟨?_, by rw [bitString_toList, List.getElem?_map, hb, Option.map_some]⟩
    obtain ⟨hj, rfl⟩ := List.getElem?_eq_some_iff.1 hb
    rw [List.length_map, List.length_range'] at hj
    rw [Memory.getBit_inside hring (by omega), List.getElem_map, List.getElem_range', Nat.zero_add, Nat.one_mul]
  · intro hout
    have hlist := Memory.ringBitList_error hout
    exact ⟨hlist, by rw [Memory.ringBits, hlist]⟩

/-! ### Writing a register -/

theorem Memory.wordCell_eq_locate (m : Memory) {w : WordDesc} {j : Nat} (hj : j < w.width) :
    m.wordCell w j = m.locate (wordIndex w j).1 (wordIndex w j).2 := by
  simp only [Memory.wordCell, w.resolveBit_natCast, if_pos hj]

/-- Where a Word's bits are, the cells outside it included, depends on the shape alone. -/
theorem Memory.sameOutside.trans {m m' m'' : Memory} {w : WordDesc} (h : m.sameOutside m' w)
    (h' : m'.sameOutside m'' w) : m.sameOutside m'' w := by
  obtain ⟨hshape, hout⟩ := h
  obtain ⟨hshape', hout'⟩ := h'
  refine ⟨hshape'.trans hshape, fun ring p hb => (hout' ring p fun hb' => hb ?_).trans (hout ring p hb)⟩
  obtain ⟨j, hj, hcell⟩ := hb'
  exact ⟨j, hj, (Memory.wordCell_congr hshape w j).symm.trans hcell⟩

/-- R132: writing one bit of a Word the Machine holds. -/
theorem Memory.setCell_word {m : Memory} (hw : m.wf = true) {w : WordDesc} (h : m.holdsWord w = true) {j : Nat}
    (hj : j < w.width) {q : Nat × Nat} (hq : m.wordCell w j = .ok q) (b : Bool) :
    m.sameOutside (m.setCell q.1 q.2 b) w ∧ (m.setCell q.1 q.2 b).wordBit w j = b ∧
      ∀ i, i < w.width → i ≠ j → (m.setCell q.1 q.2 b).wordBit w i = m.wordBit w i := by
  have hcell : ∀ {i q'}, m.wordCell w i = .ok q' → (m.setCell q.1 q.2 b).wordCell w i = .ok q' := fun hi =>
    (Memory.wordCell_congr (m.setCell_shape _ _ _) w _).trans hi
  refine ⟨⟨m.setCell_shape _ _ _, fun ring p hb => ?_⟩, ?_, fun i hi hij => ?_⟩
  · exact m.cell_setCell_ne (fun e => hb ⟨j, hj, hq.trans (congrArg Except.ok e.symm)⟩) b
  · rw [Memory.wordBit_eq_cell (hcell hq), Memory.cell_setCell_self (Memory.hasCell_of_wordCell hw hq)]
  · obtain ⟨_, -, hi'⟩ := Memory.wordCell_ok h hi
    have hne : m.wordCell w i ≠ m.wordCell w j := fun e => hij (Memory.wordCell_inj h hi hj e)
    rw [Memory.wordBit_eq_cell (hcell hi'), Memory.wordBit_eq_cell hi', m.cell_setCell_ne]
    exact fun e => hne (hi'.trans ((congrArg Except.ok e).trans hq.symm))

/-- R104 on a bit of a number. -/
theorem maskBit_div_pow (v j : Nat) : maskBit ((v / 2 ^ j % 2 : Nat) : Int) = v.testBit j := by
  rw [maskBit, Nat.testBit_eq_decide_div_mod_eq]
  exact decide_eq_decide.2 (by omega)

/-- R201: the write puts the number's low bits into the Word, bit by bit, and changes no other cell. -/
theorem Memory.writeWord_ok {m : Memory} (hw : m.wf = true) {w : WordDesc} (h : m.holdsWord w = true) (v : Nat)
    {n : Nat} (hn : n ≤ w.width) :
    ∃ m', m.writeWord w v n 0 = .ok m' ∧ m.sameOutside m' w ∧ ∀ i, i < n → m'.wordBit w i = v.testBit i := by
  induction n with
  | zero => exact ⟨m, rfl, ⟨rfl, fun _ _ _ => rfl⟩, fun i hi => absurd hi (Nat.not_lt_zero i)⟩
  | succ n ih =>
    obtain ⟨m', hrun, hframe, hbits⟩ := ih (by omega)
    have hw' := Memory.wf_of_shape hframe.1 hw
    have h' := (Memory.holdsWord_of_counts (Memory.shape_gearCount hframe.1)
      (Memory.shape_ringCount hframe.1) w).trans h
    obtain ⟨r, -, hq⟩ := Memory.wordCell_ok h' hn
    obtain ⟨hout, hbit, hrest⟩ := Memory.setCell_word hw' h' hn hq (v.testBit n)
    refine ⟨_, ?_, hframe.trans hout, fun i hi => ?_⟩
    · rw [m'.wordCell_eq_locate hn] at hq
      rw [Memory.writeWord, hrun, Nat.zero_add]
      simp only [w.resolveBit_natCast, if_pos (Nat.lt_of_succ_le hn), Memory.setBit_eq_setCell hq, maskBit_div_pow]
    · by_cases hin : i = n
      · rw [hin, hbit]
      · rw [hrest i (by omega) hin, hbits i (by omega)]

/-- A number's low bits, read as a number. -/
theorem natOfBits_testBit (v n : Nat) : natOfBits v.testBit n = v % 2 ^ n := by
  induction n with
  | zero => rw [natOfBits, Nat.pow_zero, Nat.mod_one]
  | succ n ih => rw [natOfBits, ih, Nat.mod_pow_succ, Nat.toNat_testBit, Nat.mul_comm]

/-- Settles O56: a register is a Word of its own cells, and the write sets each of its bits. -/
theorem hostWritesARegister : Obligations.HostWritesARegister := by
  intro s k v hw hk
  have hmem := (s.wf_iff.1 hw).1
  obtain ⟨m, hrun, hframe, hbits⟩ := Memory.writeWord_ok hmem (s.holdsWord_regWord hw hk) v le_rfl
  rw [s.regWord_width] at hbits
  refine ⟨m, by rw [State.writeRegister, hrun], Memory.wf_of_shape hframe.1 hmem, hframe, ?_⟩
  rw [Memory.wordValue_regWord hbits, natOfBits_testBit]

end Sys2Proof.Machine
end
